-- ==== Sys2Proof/Word.lean ====
section
/-! DEFINITION. The block's plain data: bytes (00_scope.md R10), exact decimals (R13) and the names of the four
latched quantities (10_state.md R22). Operations on them are in Machine/. -/

namespace Sys2Proof

/-- A byte: 8 bits, bit 0 the least significant (R10). -/
abbrev Byte := BitVec 8

/-- A byte string (R10). -/
abbrev Bytes := List Byte

/-- An exact signed decimal `(-1)^neg × coeff × 10^exp` (R13). Structural equality is FINER than the rule's equality of
values: that one is `sameDec` in Machine/Decimal.lean (assumption 10). -/
structure Dec where
  neg   : Bool
  coeff : Nat
  exp   : Int
  deriving DecidableEq, Repr

/-- The index set `{V, I, R, F}` of the latch file (R12, R22). -/
inductive Quantity where
  | voltage
  | current
  | resistance
  | frequency
  deriving DecidableEq, Repr

end Sys2Proof
end

