-- ==== Sys2Proof/Config.lean ====
section
/-! DEFINITION. What an implementation fixes before the first command: the shape of the lookup tables CFG
(40_tables.md R80 to R85), the parameters of 00_scope.md R9, and the free value NAN_DRAW (42_accessors.md R144). The
tables' contents are data of State; the reference tables REFCFG are in Machine/RefCfg.lean, the admission checks of R86
in Machine/Tables.lean. -/

namespace Sys2Proof

/-- A range entry `RE = (prec, unit, mexp)` (R81); its multiplier is exactly `10^mexp`. `prec` is read by no rule (R95). -/
structure RangeEntry where
  prec : Bytes
  unit : Bytes
  mexp : Int
  deriving DecidableEq, Repr

/-- An entry of the measurement-type table (R83): a name, possibly empty, and a range table (R82) or NONE. -/
structure MeasType where
  name  : Bytes
  table : Option (List RangeEntry)
  deriving DecidableEq, Repr

/-- A flag-table entry `FB = (off, mask, tag)` (R84). -/
structure FlagBit where
  off  : Nat
  mask : Byte
  tag  : Bytes
  deriving DecidableEq, Repr

/-- The configuration `CFG = (MT, FT)` (R80). -/
structure Cfg where
  mt : List MeasType
  ft : List FlagBit
  deriving DecidableEq, Repr

/-- `FLAG_COUNT`, the number of entries of `FT` (00_scope.md R9). -/
def Cfg.flagCount (c : Cfg) : Nat := c.ft.length

/-- `MAG_POLICY` (R9; 41_decode.md R109): what a non-numeric magnitude field does. -/
inductive MagPolicy where
  | error
  | zero
  deriving DecidableEq, Repr

/-- `NEG_ZERO` (R9; 41_decode.md R120): whether a negated zero magnitude prints a minus sign. -/
inductive NegZero where
  | minus
  | plain
  deriving DecidableEq, Repr

/-- The parameters of R9 that the source leaves open. `readableCap` (`none` is OPEN) is read by no rule: the model holds
up to 65535 bytes (R9, D25; assumption 5). NAN_DRAW is not here: it is the pair of free values below. -/
structure Params where
  cfg         : Cfg
  magPolicy   : MagPolicy
  negZero     : NegZero
  readableCap : Option Nat
  deriving DecidableEq, Repr

/-- FREE VALUE (assumption 3): the sign bit of the n-th NaN the block returns for an unset latch (R144, NAN_DRAW). -/
opaque Config.nanSign : Nat → Bool

/-- FREE VALUE (assumption 3): the fraction field of the n-th NaN, less one. It ranges over `0 .. 2^52 - 2`, so that the
fraction itself is any value of bits 51:0 but 0 (R144: "fraction bits 51:0 not all 0"). -/
opaque Config.nanFraction : Nat → Fin 4503599627370495

end Sys2Proof
end

