-- ==== Sys2Proof/Machine/Text.lean ====
section
/-! DEFINITION. Byte-string primitives: ASCII text and decimal spellings (00_scope.md R10, R14), the comma join
(41_decode.md R114) and the byte order of responses (20_memory.md R43). -/

namespace Sys2Proof.Machine

/-- The byte string `"..."` of ASCII codes (R10). -/
def ascii (s : String) : Bytes := s.toList.map (fun c => BitVec.ofNat 8 c.toNat)

/-- `isDigit(b)` (R14). -/
def isDigit (b : Byte) : Bool := decide (0x30 ≤ b.toNat) && decide (b.toNat ≤ 0x39)

/-- `digit(b) = b - 0x30` (R14), used of digits only. -/
def digitVal (b : Byte) : Nat := b.toNat - 0x30

/-- The ASCII digit of `n < 10`. -/
def digitByte (n : Nat) : Byte := BitVec.ofNat 8 (0x30 + n)

/-- The decimal digits of `n`, most significant first; `fuel` bounds how many digits follow the first. -/
def decDigits : Nat → Nat → Bytes
  | 0, n => [digitByte (n % 10)]
  | fuel + 1, n => if n < 10 then [digitByte n] else decDigits fuel (n / 10) ++ [digitByte (n % 10)]

/-- `dec(n)`, the shortest ASCII decimal spelling of `n` (R14). -/
def dec (n : Nat) : Bytes := decDigits (Nat.log2 n) n

/-- `pad4(n)`: `dec(n)` left-padded with `"0"` to 4 characters (R14), used of `n < 10000` only. -/
def pad4 (n : Nat) : Bytes := List.replicate (4 - (dec n).length) 0x30#8 ++ dec n

/-- The number a string of ASCII digits spells, read left to right: what `dec` is the inverse of. -/
def digitsValue (bs : Bytes) : Nat := bs.foldl (fun acc b => 10 * acc + digitVal b) 0

/-- `Join(tags)`: the tags separated by single commas (R114). -/
def join : List Bytes → Bytes
  | [] => []
  | [t] => t
  | t :: u :: ts => t ++ 0x2C#8 :: join (u :: ts)

/-- The `n` low bytes of `v`, least significant first (R43). -/
def leBytes (n : Nat) {w : Nat} (v : BitVec w) : Bytes :=
  (List.range n).map (fun k => v.extractLsb' (8 * k) 8)

/-- A byte-string length as the 2 bytes of a response (R65). It is the length itself up to 65535, which is as long as
READABLE gets (R25, R86; assumption 12). -/
def lenBytes (bs : Bytes) : Bytes := leBytes 2 (BitVec.ofNat 16 bs.length)

end Sys2Proof.Machine
end

