-- ==== Sys2Proof/Machine/Decimal.lean ====
section
/-! DEFINITION. Exact decimals (00_scope.md R13) and the formatter `Fmt4` (41_decode.md R120). -/

namespace Sys2Proof.Machine

/-- `scale(d, k)`: times `10^k`, exact (R13). -/
def scale (d : Dec) (k : Int) : Dec := { d with exp := d.exp + k }

/-- `negate(d)` (R13). -/
def negate (d : Dec) : Dec := { d with neg := !d.neg }

/-- `val(d) = (-1)^neg × coeff × 10^exp`, the rational number (R13). -/
def val (d : Dec) : ℚ := (if d.neg then -1 else 1) * (d.coeff : ℚ) * (10 : ℚ) ^ d.exp

/-- `coeff × 10^(exp - m)` for `m ≤ exp`: the coefficient over the smaller exponent `m`. -/
def coeffAt (d : Dec) (m : Int) : Nat := d.coeff * 10 ^ (d.exp - m).toNat

/-- "Equal as data" (R13): equal values, and for the value 0 equal signs, decided without fractions. -/
def sameDec (a b : Dec) : Bool :=
  let m := min a.exp b.exp
  a.neg == b.neg && coeffAt a m == coeffAt b m

/-- `N` of R120: `|val(d)| × 10^4` rounded, half away from zero. -/
def fmt4Units (d : Dec) : Nat :=
  let k := -4 - d.exp
  if k ≤ 0 then d.coeff * 10 ^ (-k).toNat
  else
    let t := 10 ^ k.toNat
    d.coeff / t + (if t ≤ 2 * (d.coeff % t) then 1 else 0)

/-- Whether R120 prints a minus sign. -/
def fmt4Minus (p : NegZero) (d : Dec) : Bool := d.neg && (decide (d.coeff ≠ 0) || decide (p = .minus))

/-- `Fmt4(d)`: `d` with exactly 4 decimal places (R120). -/
def fmt4 (p : NegZero) (d : Dec) : Bytes :=
  (if fmt4Minus p d then ascii "-" else []) ++
    dec (fmt4Units d / 10000) ++ ascii "." ++ pad4 (fmt4Units d % 10000)

end Sys2Proof.Machine
end

