-- ==== Sys2Proof/Machine/Binary64.lean ====
section
/-! DEFINITION. The binary64 spelling of an exact decimal (00_scope.md R14) and of an unset latch (42_accessors.md R144).
The format and its rounding are those of IEEE 754 (R14, general knowledge by the spec's own mark; assumption 11). -/

namespace Sys2Proof.Machine

/-- `2^e ≤ p/q`, without fractions. -/
def powLe (e : Int) (p q : Nat) : Bool :=
  if 0 ≤ e then decide (q * 2 ^ e.toNat ≤ p) else decide (q ≤ p * 2 ^ (-e).toNat)

/-- The `e` with `2^e ≤ p/q < 2^(e+1)`, for positive `p` and `q`. -/
def floorLog2 (p q : Nat) : Int :=
  let e : Int := (Nat.log2 p : Int) - (Nat.log2 q : Int)
  if powLe e p q then e else e - 1

/-- `n/d` rounded to the nearest natural number, ties to even. -/
def roundHalfEven (n d : Nat) : Nat :=
  let m := n / d
  let r := n % d
  if d < 2 * r ∨ (2 * r = d ∧ m % 2 = 1) then m + 1 else m

/-- The exponent of the unit in the last place that `p/q` is rounded to: 53 significant bits, never below `2^-1074`. -/
def ulpExp (p q : Nat) : Int := max (floorLog2 p q - 52) (-1074)

/-- `p/q` in units of `2^u`, rounded to nearest, ties to even. -/
def unitsAt (u : Int) (p q : Nat) : Nat :=
  if 0 ≤ u then roundHalfEven p (q * 2 ^ u.toNat) else roundHalfEven (p * 2 ^ (-u).toNat) q

/-- Bits 62:0 of positive infinity: the exponent field all ones, the fraction 0. -/
def infMagnitude : Nat := 0x7FF0000000000000

/-- Bits 62:0 of the binary64 number nearest to `p/q`, ties to even; past the largest finite number it is infinity. The
exponent and fraction fields together count the binary64 numbers in order, so that a carry out of the fraction is right
as it stands. -/
def magnitudeBits (p q : Nat) : Nat :=
  if p = 0 then 0
  else min ((ulpExp p q + 1074).toNat * 2 ^ 52 + unitsAt (ulpExp p q) p q) infMagnitude

/-- `|val(d)|` as a fraction: numerator and denominator. -/
def fracOf (d : Dec) : Nat × Nat :=
  if 0 ≤ d.exp then (d.coeff * 10 ^ d.exp.toNat, 1) else (d.coeff, 10 ^ (-d.exp).toNat)

/-- `binary64(d)`: the binary64 number nearest to `val(d)`, ties to even; negative zero for a negated zero (R14). -/
def binary64 (d : Dec) : BitVec 64 :=
  BitVec.ofBool d.neg ++ BitVec.ofNat 63 (magnitudeBits (fracOf d).1 (fracOf d).2)

/-- A NaN: exponent bits 62:52 all 1 and fraction bits 51:0 not all 0 (R144). -/
def isNaN (b : BitVec 64) : Bool := b.extractLsb' 52 11 == 0x7FF#11 && b.extractLsb' 0 52 != 0#52

/-- The `n`-th NaN the block draws (R144, NAN_DRAW): sign and fraction are free values (assumption 3). -/
def nanDraw (n : Nat) : BitVec 64 :=
  BitVec.ofBool (Config.nanSign n) ++ 0x7FF#11 ++ BitVec.ofNat 52 ((Config.nanFraction n).val + 1)

end Sys2Proof.Machine
end

