-- ==== Sys2Proof/Syntax.lean ====
section
/-! DEFINITION. The instructions: one constructor for each of the 25 rows of spec/opcode_table.json (30_encoding.md R60,
R64, R71). -/

namespace Sys2Proof

/-- A frame with a valid layout (R60: `L ≥ 12`), field by field, less MCODE, which is the constructor that carries it.
`u0` (byte 0 bits 7:3), `u6` (byte 6 bits 7:4) and `trail` (offsets 12 and above) are the ignored bits (R69): kept so
that no bit of an encoding is lost, read by no meaning. -/
structure Frame where
  sub   : BitVec 3
  u0    : BitVec 5
  w1    : Byte
  w2    : Byte
  w3    : Byte
  w4    : Byte
  w5    : Byte
  u6    : BitVec 4
  s7    : Byte
  s8    : Byte
  s9    : Byte
  s10   : Byte
  s11   : Byte
  trail : Bytes
  deriving DecidableEq, Repr

/-- The host commands and frame functions. A DECODE command whose frame has a valid layout is read as the frame function
`frameMcode<c>` its byte 6 selects; one whose frame is shorter than 12 bytes, which has no byte 6 to select with, is read
as `decode` (assumption 6). -/
inductive Instr where
  /-- DECODE (0x01): the whole command of R100 on a byte string. -/
  | decode (f : Bytes)
  /-- RD_VOLTAGE (0x10), R140. -/
  | rdVoltage
  /-- RD_CURRENT (0x11), R141. -/
  | rdCurrent
  /-- RD_RESISTANCE (0x12), R142. -/
  | rdResistance
  /-- RD_FREQUENCY (0x13), R143. -/
  | rdFrequency
  /-- RD_READABLE (0x20), R145. -/
  | rdReadable
  /-- RD_STATUS (0x21), R146. -/
  | rdStatus
  /-- RD_FLAGS (0x22), R147. -/
  | rdFlags
  /-- RESET (0xFF), R149. -/
  | reset
  /-- FRAME_MCODE_0: a DECODE of a frame with measurement code 0x0 (R104); likewise the fifteen below. -/
  | frameMcode0 (fr : Frame)
  | frameMcode1 (fr : Frame)
  | frameMcode2 (fr : Frame)
  | frameMcode3 (fr : Frame)
  | frameMcode4 (fr : Frame)
  | frameMcode5 (fr : Frame)
  | frameMcode6 (fr : Frame)
  | frameMcode7 (fr : Frame)
  | frameMcode8 (fr : Frame)
  | frameMcode9 (fr : Frame)
  | frameMcodeA (fr : Frame)
  | frameMcodeB (fr : Frame)
  | frameMcodeC (fr : Frame)
  | frameMcodeD (fr : Frame)
  | frameMcodeE (fr : Frame)
  | frameMcodeF (fr : Frame)
  deriving DecidableEq, Repr

end Sys2Proof
end

