-- ==== Sys2Proof/WellFormed.lean ====
section
/-! DEFINITION. Which instructions have an encoding: the checks on a DECODE's length (30_encoding.md R60, R63). The checks
on a configuration (40_tables.md R86) are in Machine/Tables.lean. -/

namespace Sys2Proof

/-- The frame's length `12 + trail` fits the length byte `L` (R63: at most 255). -/
def Frame.wf (fr : Frame) : Bool := decide (fr.trail.length ≤ 243)

/-- A well-formed instruction: a DECODE with a frame of valid layout is written as its frame function, so `decode` itself
carries fewer than 12 bytes (assumption 6). -/
def Instr.wf : Instr → Bool
  | .decode f => decide (f.length < 12)
  | .rdVoltage => true
  | .rdCurrent => true
  | .rdResistance => true
  | .rdFrequency => true
  | .rdReadable => true
  | .rdStatus => true
  | .rdFlags => true
  | .reset => true
  | .frameMcode0 fr => fr.wf
  | .frameMcode1 fr => fr.wf
  | .frameMcode2 fr => fr.wf
  | .frameMcode3 fr => fr.wf
  | .frameMcode4 fr => fr.wf
  | .frameMcode5 fr => fr.wf
  | .frameMcode6 fr => fr.wf
  | .frameMcode7 fr => fr.wf
  | .frameMcode8 fr => fr.wf
  | .frameMcode9 fr => fr.wf
  | .frameMcodeA fr => fr.wf
  | .frameMcodeB fr => fr.wf
  | .frameMcodeC fr => fr.wf
  | .frameMcodeD fr => fr.wf
  | .frameMcodeE fr => fr.wf
  | .frameMcodeF fr => fr.wf

end Sys2Proof
end

