-- ==== Sys2Proof/Decode.lean ====
section
/-! DEFINITION. Reading host commands from bytes (30_encoding.md R60 to R64, R67, R70) and writing them. The two formats
of the opcode table meet here: the command byte (CMD8) and, inside a DECODE, byte 6 of the frame (FRAME_B6). -/

namespace Sys2Proof

/-- The frame's bits 7:hi and hi-1:0 of one byte put together: `b = hi ++ lo`. -/
def joinByte0 (u0 : BitVec 5) (sub : BitVec 3) : Byte := u0 ++ sub

/-- Byte 6: ignored high nibble, measurement code. -/
def joinByte6 (u6 : BitVec 4) (mcode : BitVec 4) : Byte := u6 ++ mcode

/-- A frame of valid layout from its bytes: MCODE and the other fields (R60, R61). `none` exactly when `L < 12`. -/
def parseFrame : Bytes → Option (BitVec 4 × Frame)
  | b0 :: b1 :: b2 :: b3 :: b4 :: b5 :: b6 :: b7 :: b8 :: b9 :: b10 :: b11 :: trail =>
    some (b6.extractLsb' 0 4,
      { sub := b0.extractLsb' 0 3, u0 := b0.extractLsb' 3 5
        w1 := b1, w2 := b2, w3 := b3, w4 := b4, w5 := b5
        u6 := b6.extractLsb' 4 4
        s7 := b7, s8 := b8, s9 := b9, s10 := b10, s11 := b11
        trail := trail })
  | _ => none

/-- The bytes `f[0] .. f[L-1]` of a frame of valid layout (R60). -/
def frameBytes (mcode : BitVec 4) (fr : Frame) : Bytes :=
  joinByte0 fr.u0 fr.sub :: fr.w1 :: fr.w2 :: fr.w3 :: fr.w4 :: fr.w5 :: joinByte6 fr.u6 mcode ::
    fr.s7 :: fr.s8 :: fr.s9 :: fr.s10 :: fr.s11 :: fr.trail

/-- The function map of byte 6 (R71): the frame function a measurement code selects. -/
def Instr.ofCode (mcode : BitVec 4) (fr : Frame) : Instr :=
  match mcode.toFin with
  | 0 => .frameMcode0 fr
  | 1 => .frameMcode1 fr
  | 2 => .frameMcode2 fr
  | 3 => .frameMcode3 fr
  | 4 => .frameMcode4 fr
  | 5 => .frameMcode5 fr
  | 6 => .frameMcode6 fr
  | 7 => .frameMcode7 fr
  | 8 => .frameMcode8 fr
  | 9 => .frameMcode9 fr
  | 10 => .frameMcodeA fr
  | 11 => .frameMcodeB fr
  | 12 => .frameMcodeC fr
  | 13 => .frameMcodeD fr
  | 14 => .frameMcodeE fr
  | 15 => .frameMcodeF fr
  | ⟨n + 16, h⟩ => absurd h (Nat.not_lt.mpr (Nat.le_add_left 16 n))

/-- The instruction a DECODE command with the frame operand `f` is (assumption 6). -/
def Instr.ofFrame (f : Bytes) : Instr :=
  match parseFrame f with
  | some (mcode, fr) => .ofCode mcode fr
  | none => .decode f

/-- What the head of the host's byte stream is. -/
inductive Decoded where
  /-- One whole command, and the bytes after it. -/
  | command (i : Instr) (rest : Bytes)
  /-- No byte, or a DECODE whose length byte or frame the host has not sent in full. -/
  | incomplete
  /-- A command byte other than the nine of R64: reserved (R67). -/
  | reserved (c : Byte)
  deriving DecidableEq, Repr

/-- The operands of a DECODE: the length byte `L`, then `L` frame bytes (R63). -/
def decodeOperands : Bytes → Decoded
  | [] => .incomplete
  | l :: body =>
    if body.length < l.toNat then .incomplete
    else .command (.ofFrame (body.take l.toNat)) (body.drop l.toNat)

/-- The command map of R64, total on every byte stream. -/
def decode : Bytes → Decoded
  | [] => .incomplete
  | c :: rest =>
    if c = 0x01#8 then decodeOperands rest
    else if c = 0x10#8 then .command .rdVoltage rest
    else if c = 0x11#8 then .command .rdCurrent rest
    else if c = 0x12#8 then .command .rdResistance rest
    else if c = 0x13#8 then .command .rdFrequency rest
    else if c = 0x20#8 then .command .rdReadable rest
    else if c = 0x21#8 then .command .rdStatus rest
    else if c = 0x22#8 then .command .rdFlags rest
    else if c = 0xFF#8 then .command .reset rest
    else .reserved c

/-- The bytes of a DECODE with the frame operand `f` (R63). -/
def encodeDecode (f : Bytes) : Bytes := 0x01#8 :: BitVec.ofNat 8 f.length :: f

/-- The bytes the host sends for a command (R63, R64). -/
def encode : Instr → Bytes
  | .decode f => encodeDecode f
  | .rdVoltage => [0x10#8]
  | .rdCurrent => [0x11#8]
  | .rdResistance => [0x12#8]
  | .rdFrequency => [0x13#8]
  | .rdReadable => [0x20#8]
  | .rdStatus => [0x21#8]
  | .rdFlags => [0x22#8]
  | .reset => [0xFF#8]
  | .frameMcode0 fr => encodeDecode (frameBytes 0x0#4 fr)
  | .frameMcode1 fr => encodeDecode (frameBytes 0x1#4 fr)
  | .frameMcode2 fr => encodeDecode (frameBytes 0x2#4 fr)
  | .frameMcode3 fr => encodeDecode (frameBytes 0x3#4 fr)
  | .frameMcode4 fr => encodeDecode (frameBytes 0x4#4 fr)
  | .frameMcode5 fr => encodeDecode (frameBytes 0x5#4 fr)
  | .frameMcode6 fr => encodeDecode (frameBytes 0x6#4 fr)
  | .frameMcode7 fr => encodeDecode (frameBytes 0x7#4 fr)
  | .frameMcode8 fr => encodeDecode (frameBytes 0x8#4 fr)
  | .frameMcode9 fr => encodeDecode (frameBytes 0x9#4 fr)
  | .frameMcodeA fr => encodeDecode (frameBytes 0xA#4 fr)
  | .frameMcodeB fr => encodeDecode (frameBytes 0xB#4 fr)
  | .frameMcodeC fr => encodeDecode (frameBytes 0xC#4 fr)
  | .frameMcodeD fr => encodeDecode (frameBytes 0xD#4 fr)
  | .frameMcodeE fr => encodeDecode (frameBytes 0xE#4 fr)
  | .frameMcodeF fr => encodeDecode (frameBytes 0xF#4 fr)

/-- The nine command bytes of R64. -/
def commandBytes : Bytes :=
  [0x01#8, 0x10#8, 0x11#8, 0x12#8, 0x13#8, 0x20#8, 0x21#8, 0x22#8, 0xFF#8]

/-- Byte `k` of a word whose bytes follow each other from the least significant one. -/
def wordByte (w k : Nat) : Byte := BitVec.ofNat 8 (w / 2 ^ (8 * k))

/-- An opcode-table word as the bytes of the command it stands for, bits above `nbits` zero (assumption 7). A CMD8 row
is numbered from the command byte on, so its word is laid out as it stands, with as many operand bytes as its length
byte says. A FRAME_B6 row is numbered within byte 6 of a frame, so a word that is no command byte is laid out as a DECODE
of the shortest frame of valid layout with that byte 6 and every other bit of the frame 0. -/
def tableBytes (nbits w : Nat) : Bytes :=
  let v := w % 2 ^ nbits
  let c := wordByte v 0
  if c = 0x01#8 then
    c :: wordByte v 1 :: (List.range (wordByte v 1).toNat).map (fun k => wordByte v (k + 2))
  else if c ∈ commandBytes then [c]
  else encodeDecode [0#8, 0#8, 0#8, 0#8, 0#8, 0#8, c, 0#8, 0#8, 0#8, 0#8, 0#8]

/-- The instruction the decoder reads from an opcode-table word. -/
def decodeTableWord (nbits w : Nat) : Option Instr :=
  match decode (tableBytes nbits w) with
  | .command i _ => some i
  | .incomplete => none
  | .reserved _ => none

end Sys2Proof
end

