-- ==== Sys2Proof/Machine/Tables.lean ====
section
/-! DEFINITION. The admission checks on a configuration (40_tables.md R86), the facts of R94 and the sign/display split of
R85. -/

namespace Sys2Proof.Machine

/-- A sign entry: its tag is the one-byte string `"-"` (R85). Every other entry is a display entry. -/
def isSign (fb : FlagBit) : Bool := fb.tag == ascii "-"

/-- The labels a measurement type can produce, each with its multiplier's exponent: every range entry's unit, and the name
with exponent 0 when there is no table (R86, `wf_readable_bound`). -/
def typeLabels (mt : MeasType) : List (Bytes × Int) :=
  match mt.table with
  | none => [(mt.name, 0)]
  | some rt => rt.map (fun e => (e.unit, e.mexp))

/-- `Σ_display len(tag)` (R86). -/
def displayTagBytes (ft : List FlagBit) : Nat :=
  ((ft.filter (fun fb => !isSign fb)).map (fun fb => fb.tag.length)).sum

/-- The longest readable a label with multiplier `10^m` can give: sign, integer digits, point and 4 decimals, space, unit,
space, tags and commas (R86). -/
def readableBound (c : Cfg) (unitLen : Nat) (m : Int) : Int :=
  1 + max 1 (5 + m) + 5 + 1 + (unitLen : Int) + 1 + (displayTagBytes c.ft : Int) + (c.flagCount : Int)

/-- `wf_mt_count` (R86). -/
def wfMtCount (c : Cfg) : Bool := decide (c.mt.length = 16)

/-- `wf_rt_len` (R86). -/
def wfRtLen (c : Cfg) : Bool :=
  c.mt.all (fun mt => match mt.table with
    | none => true
    | some rt => decide (rt.length ≤ 8))

/-- `wf_flag_offset` (R86). -/
def wfFlagOffset (c : Cfg) : Bool := c.ft.all (fun fb => decide (7 ≤ fb.off) && decide (fb.off ≤ 11))

/-- `wf_flag_mask`: exactly one bit set (R86). -/
def wfFlagMask (c : Cfg) : Bool := c.ft.all (fun fb => (List.range 8).any (fun k => fb.mask == 1#8 <<< k))

/-- `wf_flag_count` (R86). -/
def wfFlagCount (c : Cfg) : Bool := decide (c.flagCount ≤ 32)

/-- `wf_readable_bound` (R86). The rule takes for each label the largest exponent paired with it; the bound grows with the
exponent, so checking every pair is the same. -/
def wfReadableBound (c : Cfg) : Bool :=
  c.mt.all (fun mt => (typeLabels mt).all (fun lm => decide (readableBound c lm.1.length lm.2 ≤ 65535)))

/-- `WF(CFG)` (R86). `wf_mult_pow10` holds of every `Cfg`: a range entry holds the exponent `mexp`, not a multiplier
(R81), so a multiplier that is no power of ten cannot be written (assumption 9). -/
def cfgWf (c : Cfg) : Bool :=
  wfMtCount c && wfRtLen c && wfFlagOffset c && wfFlagMask c && wfFlagCount c && wfReadableBound c

/-- Every range entry of a configuration. -/
def rangeEntries (c : Cfg) : List RangeEntry := c.mt.flatMap (fun mt => mt.table.getD [])

/-- The first entry tagged `first` stands before the first entry tagged `second`, and both are there: the order
of two tags in the flag table (R94). -/
def tagBefore (ft : List FlagBit) (first second : Bytes) : Bool :=
  (ft.map FlagBit.tag).idxOf first < (ft.map FlagBit.tag).idxOf second
    && (ft.map FlagBit.tag).contains second

/-- The facts the source settles of the tables' contents (R94): "every admitted CFG a claim about this device relies on
must agree with them". A premise for claims about the device, no check of the machine's (assumption 18). -/
def cfgSettled (c : Cfg) : Bool :=
  (rangeEntries c).any (fun e => e.unit == ascii "V" && decide (e.mexp = -4))
  && (rangeEntries c).any (fun e => e.unit == ascii "V" && e.prec == ascii "2.2000")
  && (rangeEntries c).any (fun e => e.unit == ascii "V" && e.prec == ascii "1000.0")
  && (rangeEntries c).any (fun e => e.unit == ascii "mA" && decide (e.mexp = -3))
  && c.mt.any (fun mt => [ascii "nF", ascii "uF", ascii "mF"].all (fun u => (mt.table.getD []).any (fun e => e.unit == u)))
  && c.mt.any (fun mt => decide (mt.table = none) && decide (mt.name ≠ []))
  && decide (2 ≤ (c.mt.filter (fun mt => decide (mt.table = none) && decide (mt.name = []))).length)
  && tagBefore c.ft (ascii "AUTO") (ascii "Hz")
  && tagBefore c.ft (ascii "DC") (ascii "AUTO")
  && c.ft.all (fun fb => !(fb.tag == ascii "AUTO" || fb.tag == ascii "Hz") || decide (fb.off = 10))
  && decide ((c.ft.filter isSign).length = 1)

end Sys2Proof.Machine
end

