-- ==== Sys2Proof/Machine/Operands.lean ====
section
/-! DEFINITION. What DECODE reads of a frame and of the tables: the magnitude window (41_decode.md R106 to R108), the
range lookup (R104, R105; 40_tables.md R87, R88), the unit classes of the output mux (R125). -/

namespace Sys2Proof.Machine

/-- The three classes of a magnitude byte (R106). -/
inductive MagClass where
  | digit
  | point
  | other
  deriving DecidableEq, Repr

/-- The class of a magnitude byte (R106). -/
def magClass (w : Byte) : MagClass :=
  if isDigit w then .digit else if w = 0x2E#8 then .point else .other

/-- The magnitude window `f[1] .. f[5]`, leftmost character first (30_encoding.md R62). -/
def window (fr : Frame) : Bytes := [fr.w1, fr.w2, fr.w3, fr.w4, fr.w5]

/-- The window is numeric (R107): no byte of class other, at most one point. -/
def magNumeric (ws : Bytes) : Bool :=
  ws.all (fun w => magClass w != .other) && decide ((ws.filter (fun w => magClass w == .point)).length ≤ 1)

/-- The running values of R108's loop. -/
structure MagAcc where
  coeff : Nat
  after : Nat
  seen  : Bool
  deriving DecidableEq, Repr

/-- One round of R108's loop. -/
def magStep (a : MagAcc) (w : Byte) : MagAcc :=
  if w = 0x2E#8 then { a with seen := true }
  else { a with coeff := 10 * a.coeff + digitVal w, after := if a.seen then a.after + 1 else a.after }

/-- `MagDecode` (R108); `none` is NONNUMERIC. -/
def magDecode (ws : Bytes) : Option Dec :=
  if magNumeric ws then
    let a := ws.foldl magStep ⟨0, 0, false⟩
    some ⟨false, a.coeff, -(a.after : Int)⟩
  else none

/-- The magnitude DECODE goes on with (R109); `none` is the error InvalidMagnitude. -/
def magnitude (p : MagPolicy) (ws : Bytes) : Option Dec :=
  match magDecode ws with
  | some m => some m
  | none =>
    match p with
    | .error => none
    | .zero => some ⟨false, 0, 0⟩

/-- What the lookup engine hands on: label, multiplier exponent, whether a range table was used (R104, R105). -/
structure Lookup where
  label  : Bytes
  mexp   : Int
  tabled : Bool
  deriving DecidableEq, Repr

/-- The range lookup of one measurement type; `none` is the error InvalidFrame for a sub-range out of the table (R104,
R105; 40_tables.md R88). -/
def lookupRange (mt : MeasType) (sub : BitVec 3) : Option Lookup :=
  match mt.table with
  | none => some ⟨mt.name, 0, false⟩
  | some rt => (rt[sub.toNat]?).map (fun e => ⟨e.unit, e.mexp, true⟩)

/-- `UnitClass(label)` (R125): the latch and the exponent of the unit's factor, by exact equality. -/
def unitClass (label : Bytes) : Option (Quantity × Int) :=
  if label = ascii "V" then some (.voltage, 0)
  else if label = ascii "mV" then some (.voltage, -3)
  else if label = ascii "A" then some (.current, 0)
  else if label = ascii "mA" then some (.current, -3)
  else if label = ascii "uA" then some (.current, -6)
  else if label = ascii "Ohm" then some (.resistance, 0)
  else if label = ascii "kOhm" then some (.resistance, 3)
  else if label = ascii "MOhm" then some (.resistance, 6)
  else if label = ascii "Hz" then some (.frequency, 0)
  else if label = ascii "kHz" then some (.frequency, 3)
  else if label = ascii "MHz" then some (.frequency, 6)
  else none

end Sys2Proof.Machine
end

