-- ==== Sys2Proof/Machine/RefCfg.lean ====
section
/-! DEFINITION. The reference configuration REFCFG (40_tables.md R90 to R93): the spec's default for the parameter CFG
(00_scope.md R9), which the spec marks as general knowledge, not the source's tables (assumption 4). -/

namespace Sys2Proof.Machine

/-- One row of a range table of R92: prec / unit / mexp. -/
def refEntry (prec unit : String) (mexp : Int) : RangeEntry := ⟨ascii prec, ascii unit, mexp⟩

/-- `T_V` (R92). -/
def refTableV : List RangeEntry :=
  [refEntry "2.2000" "V" (-4), refEntry "22.000" "V" (-3), refEntry "220.00" "V" (-2), refEntry "1000.0" "V" (-1),
   refEntry "220.00" "mV" (-2)]

/-- `T_UA` (R92). -/
def refTableUA : List RangeEntry := [refEntry "220.00" "uA" (-2), refEntry "2200.0" "uA" (-1)]

/-- `T_MA` (R92). -/
def refTableMA : List RangeEntry := [refEntry "22.000" "mA" (-3), refEntry "220.00" "mA" (-2)]

/-- `T_A` (R92). -/
def refTableA : List RangeEntry := [refEntry "22.000" "A" (-3)]

/-- `T_OHM` (R92). -/
def refTableOhm : List RangeEntry :=
  [refEntry "220.00" "Ohm" (-2), refEntry "2.2000" "kOhm" (-4), refEntry "22.000" "kOhm" (-3),
   refEntry "220.00" "kOhm" (-2), refEntry "2.2000" "MOhm" (-4), refEntry "22.000" "MOhm" (-3),
   refEntry "220.00" "MOhm" (-2)]

/-- `T_HZ` (R92). -/
def refTableHz : List RangeEntry :=
  [refEntry "22.000" "Hz" (-3), refEntry "220.00" "Hz" (-2), refEntry "2.2000" "kHz" (-4), refEntry "22.000" "kHz" (-3),
   refEntry "220.00" "kHz" (-2), refEntry "2.2000" "MHz" (-4), refEntry "22.000" "MHz" (-3),
   refEntry "220.00" "MHz" (-2)]

/-- `T_CAP` (R92). -/
def refTableCap : List RangeEntry :=
  [refEntry "22.000" "nF" (-3), refEntry "220.00" "nF" (-2), refEntry "2.2000" "uF" (-4), refEntry "22.000" "uF" (-3),
   refEntry "220.00" "uF" (-2), refEntry "2.2000" "mF" (-4), refEntry "22.000" "mF" (-3), refEntry "220.00" "mF" (-2)]

/-- A measurement type with a range table. -/
def refTabled (name : String) (t : List RangeEntry) : MeasType := ⟨ascii name, some t⟩

/-- A measurement type without one; a reserved code has the empty name. -/
def refPlain (name : String) : MeasType := ⟨ascii name, none⟩

/-- `REFCFG.MT` (R91), codes 0x0 to 0xF. -/
def refMt : List MeasType :=
  [refTabled "A" refTableA, refPlain "Diode", refTabled "Frequency" refTableHz, refTabled "Resistance" refTableOhm,
   refPlain "", refPlain "Continuity", refTabled "Capacitance" refTableCap, refPlain "",
   refPlain "", refPlain "", refPlain "", refTabled "Voltage" refTableV,
   refPlain "", refTabled "uA" refTableUA, refPlain "", refTabled "mA" refTableMA]

/-- `REFCFG.FT` (R93), entries 0 to 10. -/
def refFt : List FlagBit :=
  [⟨7, 0x04#8, ascii "-"⟩, ⟨7, 0x02#8, ascii "BATT"⟩, ⟨7, 0x01#8, ascii "OL"⟩, ⟨8, 0x08#8, ascii "MAX"⟩,
   ⟨8, 0x04#8, ascii "MIN"⟩, ⟨8, 0x02#8, ascii "REL"⟩, ⟨10, 0x08#8, ascii "DC"⟩, ⟨10, 0x04#8, ascii "AC"⟩,
   ⟨10, 0x02#8, ascii "AUTO"⟩, ⟨10, 0x01#8, ascii "Hz"⟩, ⟨11, 0x02#8, ascii "HOLD"⟩]

/-- `REFCFG` (R90). -/
def refCfg : Cfg := ⟨refMt, refFt⟩

/-- The parameters of R9 at the defaults the spec gives them. -/
def defaultParams : Params := ⟨refCfg, .error, .minus, none⟩

end Sys2Proof.Machine
end

