-- ==== Sys2Proof/Machine/State.lean ====
section
/-! DEFINITION. The state (10_state.md R20 to R32), the reasons a step can stop, and the state after reset
(70_reset_and_hazards.md R180). -/

namespace Sys2Proof.Machine

/-- The block's mutable state is the first seven fields (R20); `params` holds the constants of R28 and 00_scope.md R9,
which no command writes. The last three fields are the model's own: the two ends of the host's byte stream and the
argument of the free value NAN_DRAW (assumptions 1, 2, 3). -/
structure State where
  /-- `LAT[V]`, volts; `none` is UNSET (R22). -/
  latV      : Option Dec
  /-- `LAT[I]`, amperes (R22). -/
  latI      : Option Dec
  /-- `LAT[R]`, ohms (R22). -/
  latR      : Option Dec
  /-- `LAT[F]`, hertz (R22). -/
  latF      : Option Dec
  /-- `READABLE` (R25). -/
  readable  : Bytes
  /-- `STATUS` (R26). -/
  status    : BitVec 16
  /-- `FLAGS` (R29). -/
  flags     : BitVec 32
  /-- `CFG` (R28) and the parameters of 00_scope.md R9: constant. -/
  params    : Params
  /-- The command bytes the host has sent and the block has not performed (30_encoding.md R63, R64), first byte first. -/
  input     : Bytes
  /-- The response bytes the block has sent (30_encoding.md R64, R65), in the order sent. -/
  sent      : Bytes
  /-- How many NaNs have been drawn (42_accessors.md R144: a fresh draw at each read). -/
  nanDraws  : Nat
  deriving DecidableEq, Repr

/-- The errors of DECODE (60_exceptions.md R160) by their causes. They are results of a command that completes, not model
faults: the machine goes on from the commit of R165. -/
inductive DecodeError where
  /-- `InvalidFrame(LENGTH)`, R161. -/
  | length
  /-- `InvalidFrame(SUBRANGE)`, R162. -/
  | subrange
  /-- `InvalidMagnitude`, R163. -/
  | magnitude
  deriving DecidableEq, Repr

/-- No step faults: the block has no trap (60_exceptions.md R167) and its errors are results (assumption 16). -/
inductive Fault where
  deriving DecidableEq, Repr

/-- The reasons a step is refused. -/
inductive Refusal where
  /-- Raised by `exec`'s arm of an instruction that has no meaning yet (none at present). Safe: nothing is claimed of it. -/
  | notModelled (mnemonic : String)
  /-- Raised by `step` when the next command byte is reserved (30_encoding.md R67: "a command stream containing one is
  refused as a whole"). Safe: the spec gives the byte no meaning. -/
  | reservedCommand (c : Byte)
  /-- Raised by every meaning when the configuration fails WF (40_tables.md R86: "no command has a step"). Safe: the spec
  gives such a configuration no meaning. -/
  | cfgNotAdmitted
  deriving DecidableEq, Repr

/-- The power-on state (10_state.md R32, R180), the parameters at the spec's defaults (00_scope.md R9; assumption 4), no
byte exchanged with the host (assumptions 1 and 2). -/
def State.reset : State where
  latV := none
  latI := none
  latR := none
  latF := none
  readable := []
  status := 0#16
  flags := 0#32
  params := defaultParams
  input := []
  sent := []
  nanDraws := 0

end Sys2Proof.Machine
end

