-- ==== Sys2Proof/Machine/Flags.lean ====
section
/-! DEFINITION. The flag scan (41_decode.md R111 to R114) and the fields of STATUS (10_state.md R26; R131, R165). -/

namespace Sys2Proof.Machine

/-- The status byte at a frame offset; only offsets 7 to 11 hold status bits (40_tables.md R84, R86). -/
def statByte (fr : Frame) (off : Nat) : Option Byte :=
  match off with
  | 7 => some fr.s7
  | 8 => some fr.s8
  | 9 => some fr.s9
  | 10 => some fr.s10
  | 11 => some fr.s11
  | _ => none

/-- A flag entry fires on a frame (R111). No entry of an admitted configuration names another offset (R86,
`wf_flag_offset`). -/
def fires (fr : Frame) (fb : FlagBit) : Bool :=
  match statByte fr fb.off with
  | some b => b &&& fb.mask != 0#8
  | none => false

/-- What the flag scan gives: `hits` (R112), `neg` (R113), `tags` (R114). -/
structure FlagScan where
  hits : BitVec 32
  neg  : Bool
  tags : List Bytes
  deriving DecidableEq, Repr

/-- `anyflag`: at least one display entry fired, even with an empty tag (R114). -/
def FlagScan.any (r : FlagScan) : Bool := !r.tags.isEmpty

/-- The scan of the entries from number `i` on, in table order (40_tables.md R89). -/
def flagScanFrom (fr : Frame) : Nat → List FlagBit → FlagScan
  | _, [] => ⟨0#32, false, []⟩
  | i, fb :: rest =>
    let r := flagScanFrom fr (i + 1) rest
    if fires fr fb then
      { hits := r.hits ||| (1#32 <<< i)
        neg := if isSign fb then !r.neg else r.neg
        tags := if isSign fb then r.tags else fb.tag :: r.tags }
    else r

/-- `FlagScan(f)` over the whole flag table (R111 to R114). -/
def flagScan (ft : List FlagBit) (fr : Frame) : FlagScan := flagScanFrom fr 0 ft

/-- The error codes of 60_exceptions.md R160. -/
def errorCode (e : DecodeError) : BitVec 2 :=
  match e with
  | .length => 1#2
  | .subrange => 1#2
  | .magnitude => 2#2

/-- The TARGET codes of R26. -/
def targetCode (q : Option Quantity) : BitVec 3 :=
  match q with
  | none => 0#3
  | some .voltage => 1#3
  | some .current => 2#3
  | some .resistance => 3#3
  | some .frequency => 4#3

/-- STATUS put together from its fields, bit 15 first (R26). -/
def packStatus (anyflag : Bool) (sub : BitVec 3) (mcode : BitVec 4) (tabled : Bool) (target : BitVec 3) (neg : Bool)
    (err : BitVec 2) (done : Bool) : BitVec 16 :=
  BitVec.ofBool anyflag ++ sub ++ mcode ++ BitVec.ofBool tabled ++ target ++ BitVec.ofBool neg ++ err ++
    BitVec.ofBool done

/-- STATUS after a failed DECODE: DONE and ERR, every other field 0 (R165). -/
def errorStatus (e : DecodeError) : BitVec 16 := packStatus false 0#3 0#4 false 0#3 false (errorCode e) true

/-- `STATUS.DONE` (R26). -/
def statusDone (st : BitVec 16) : BitVec 1 := st.extractLsb' 0 1
/-- `STATUS.ERR` (R26). -/
def statusErr (st : BitVec 16) : BitVec 2 := st.extractLsb' 1 2
/-- `STATUS.NEG` (R26). -/
def statusNeg (st : BitVec 16) : BitVec 1 := st.extractLsb' 3 1
/-- `STATUS.TARGET` (R26). -/
def statusTarget (st : BitVec 16) : BitVec 3 := st.extractLsb' 4 3
/-- `STATUS.TABLED` (R26). -/
def statusTabled (st : BitVec 16) : BitVec 1 := st.extractLsb' 7 1
/-- `STATUS.MCODE` (R26). -/
def statusMcode (st : BitVec 16) : BitVec 4 := st.extractLsb' 8 4
/-- `STATUS.SUBRANGE` (R26). -/
def statusSubrange (st : BitVec 16) : BitVec 3 := st.extractLsb' 12 3
/-- `STATUS.ANYFLAG` (R26). -/
def statusAnyflag (st : BitVec 16) : BitVec 1 := st.extractLsb' 15 1

end Sys2Proof.Machine
end

