-- ==== Sys2Proof/Machine/Ops.lean ====
section
/-! DEFINITION. The shared operations of the meanings: the latch file (10_state.md R22 to R24), responses (30_encoding.md
R65), the admission of a configuration (40_tables.md R86), the error commit (60_exceptions.md R165), the stages of DECODE
(41_decode.md R100 to R131), the reads (42_accessors.md R140 to R147). -/

namespace Sys2Proof.Machine

/-- `LAT[q]` (00_scope.md R12). -/
def State.latch (s : State) (q : Quantity) : Option Dec :=
  match q with
  | .voltage => s.latV
  | .current => s.latI
  | .resistance => s.latR
  | .frequency => s.latF

/-- `LAT[q] <- v` (R12). -/
def State.setLatch (s : State) (q : Quantity) (v : Option Dec) : State :=
  match q with
  | .voltage => { s with latV := v }
  | .current => { s with latI := v }
  | .resistance => { s with latR := v }
  | .frequency => { s with latF := v }

/-- UNSET to all four latches: the first action of every DECODE (R102). -/
def State.clearLatches (s : State) : State := { s with latV := none, latI := none, latR := none, latF := none }

/-- The block sends response bytes (R64, R65). -/
def State.respond (s : State) (bs : Bytes) : State := { s with sent := s.sent ++ bs }

/-- One NaN has been drawn: the next draw is another one (R144, R148; assumption 3). -/
def State.countDraw (s : State) : State := { s with nanDraws := s.nanDraws + 1 }

/-- READABLE, FLAGS and STATUS are written together (R131, R165, R149). -/
def State.setRegisters (s : State) (readable : Bytes) (flags : BitVec 32) (status : BitVec 16) : State :=
  { s with readable := readable, flags := flags, status := status }

/-- No command has a step under a configuration that fails WF (40_tables.md R86); this is the check of every meaning. -/
def whenAdmitted (s : State) (k : Host.Outcome State Fault Refusal) : Host.Outcome State Fault Refusal :=
  if cfgWf s.params.cfg then k else .refused .cfgNotAdmitted

/-- The response of a DECODE: the error code, the length of READABLE, READABLE (30_encoding.md R65). -/
def decodeResponse (err : BitVec 2) (readable : Bytes) : Bytes := err.setWidth 8 :: (lenBytes readable ++ readable)

/-- `raise E` inside DECODE: the error commit of R165, on a state whose latches are already UNSET. -/
def raiseError (e : DecodeError) (s : State) : State :=
  (s.setRegisters [] 0#32 (errorStatus e)).respond (decodeResponse (errorCode e) [])

/-- What a DECODE computes before it commits (R100, from `raw` after negation on). -/
structure Reading where
  raw      : Dec
  look     : Lookup
  scan     : FlagScan
  readable : Bytes
  deriving DecidableEq, Repr

/-- `readable` (R121). -/
def readableOf (p : NegZero) (raw : Dec) (label : Bytes) (r : FlagScan) : Bytes :=
  fmt4 p raw ++ ascii " " ++ label ++ (if r.any then ascii " " ++ join r.tags else [])

/-- `raw` after scaling (R110) and the sign entries (R113). -/
def rawOf (m : Dec) (mexp : Int) (neg : Bool) : Dec := if neg then negate (scale m mexp) else scale m mexp

/-- The reading of a frame of valid layout, or the first error in the order of R166: sub-range before magnitude
(R103 to R121). -/
def reading (p : Params) (mt : MeasType) (fr : Frame) : Except DecodeError Reading :=
  match lookupRange mt fr.sub with
  | none => .error .subrange
  | some look =>
    match magnitude p.magPolicy (window fr) with
    | none => .error .magnitude
    | some m =>
      let r := flagScan p.cfg.ft fr
      let raw := rawOf m look.mexp r.neg
      .ok ⟨raw, look, r, readableOf p.negZero raw look.label r⟩

/-- The output mux (R125 to R130): at most one latch takes the SI value. -/
def commitLatch (label : Bytes) (raw : Dec) (s : State) : State :=
  match unitClass label with
  | none => s
  | some (q, uexp) => s.setLatch q (some (scale raw uexp))

/-- STATUS after a successful DECODE (R131). -/
def successStatus (mcode : BitVec 4) (sub : BitVec 3) (rd : Reading) : BitVec 16 :=
  packStatus rd.scan.any sub mcode rd.look.tabled (targetCode ((unitClass rd.look.label).map Prod.fst)) rd.scan.neg 0#2
    true

/-- The commit of a successful DECODE (R130, R131), on a state whose latches are already UNSET. -/
def commitReading (mcode : BitVec 4) (sub : BitVec 3) (rd : Reading) (s : State) : State :=
  ((commitLatch rd.look.label rd.raw s).setRegisters rd.readable rd.scan.hits (successStatus mcode sub rd)).respond
    (decodeResponse 0#2 rd.readable)

/-- DECODE of a frame of valid layout (R100 from R103 on): the lookup is total because an admitted table has 16 entries
(40_tables.md R87). -/
def performFrame (mcode : BitVec 4) (fr : Frame) (s : State) : Host.Outcome State Fault Refusal :=
  whenAdmitted s <|
    match s.params.cfg.mt[mcode.toNat]? with
    | none => .refused .cfgNotAdmitted
    | some mt =>
      match reading s.params mt fr with
      | .error e => .next (raiseError e s.clearLatches)
      | .ok rd => .next (commitReading mcode fr.sub rd s.clearLatches)

/-- DECODE of a frame of fewer than 12 bytes (R101, R102; 60_exceptions.md R161). -/
def performShort (s : State) : Host.Outcome State Fault Refusal :=
  whenAdmitted s <| .next (raiseError .length s.clearLatches)

/-- A latch read (R140 to R144): the value's binary64, or a fresh NaN draw; 8 bytes, least significant first. -/
def readLatch (q : Quantity) (s : State) : Host.Outcome State Fault Refusal :=
  whenAdmitted s <|
    match s.latch q with
    | some d => .next (s.respond (leBytes 8 (binary64 d)))
    | none => .next (s.respond (leBytes 8 (nanDraw s.nanDraws))).countDraw

/-- A register read (R145 to R147): the response and nothing else. -/
def readRegister (response : Bytes) (s : State) : Host.Outcome State Fault Refusal :=
  whenAdmitted s <| .next (s.respond response)

end Sys2Proof.Machine
end

