-- ==== Sys2Proof/Machine/Accessors.lean ====
section
/-! DEFINITION. The meanings of the seven read commands (42_accessors.md R140 to R148). -/

namespace Sys2Proof.Machine

/-- RD_VOLTAGE (R140). -/
def execRdVoltage (s : State) : Host.Outcome State Fault Refusal := readLatch .voltage s

/-- RD_CURRENT (R141). -/
def execRdCurrent (s : State) : Host.Outcome State Fault Refusal := readLatch .current s

/-- RD_RESISTANCE (R142). -/
def execRdResistance (s : State) : Host.Outcome State Fault Refusal := readLatch .resistance s

/-- RD_FREQUENCY (R143). -/
def execRdFrequency (s : State) : Host.Outcome State Fault Refusal := readLatch .frequency s

/-- RD_READABLE (R145): the length as 2 bytes, then READABLE. -/
def execRdReadable (s : State) : Host.Outcome State Fault Refusal :=
  readRegister (lenBytes s.readable ++ s.readable) s

/-- RD_STATUS (R146): 2 bytes, least significant first. -/
def execRdStatus (s : State) : Host.Outcome State Fault Refusal := readRegister (leBytes 2 s.status) s

/-- RD_FLAGS (R147): 4 bytes, least significant first. -/
def execRdFlags (s : State) : Host.Outcome State Fault Refusal := readRegister (leBytes 4 s.flags) s

end Sys2Proof.Machine
end

