-- ==== Sys2Proof/Machine/Control.lean ====
section
/-! DEFINITION. The meaning of RESET (42_accessors.md R149). -/

namespace Sys2Proof.Machine

/-- RESET (R149): every register at its power-on value, no response. CFG is unchanged (R28), and so are the model's own
fields: the host's byte stream goes on, and NaN draws stay fresh (assumptions 1, 2, 3). -/
def execReset (s : State) : Host.Outcome State Fault Refusal :=
  whenAdmitted s <| .next (s.clearLatches.setRegisters [] 0#32 0#16)

end Sys2Proof.Machine
end

