-- ==== Sys2Proof/Machine/Frames.lean ====
section
/-! DEFINITION. The meanings of DECODE and of the sixteen frame functions (41_decode.md R100 to R132): the code selects the
entry `MT[c]` of the configuration (R104; 40_tables.md R83), what that entry means is configuration (30_encoding.md R71). -/

namespace Sys2Proof.Machine

/-- DECODE (R100): the whole command, on a frame operand of any length. -/
def execDecode (f : Bytes) (s : State) : Host.Outcome State Fault Refusal :=
  match parseFrame f with
  | none => performShort s
  | some (mcode, fr) => performFrame mcode fr s

/-- FRAME_MCODE_0 (R104): the frame function of measurement code 0x0. -/
def execFrameMcode0 (fr : Frame) (s : State) : Host.Outcome State Fault Refusal := performFrame 0x0#4 fr s

/-- FRAME_MCODE_1 (R104): the frame function of measurement code 0x1. -/
def execFrameMcode1 (fr : Frame) (s : State) : Host.Outcome State Fault Refusal := performFrame 0x1#4 fr s

/-- FRAME_MCODE_2 (R104): the frame function of measurement code 0x2. -/
def execFrameMcode2 (fr : Frame) (s : State) : Host.Outcome State Fault Refusal := performFrame 0x2#4 fr s

/-- FRAME_MCODE_3 (R104): the frame function of measurement code 0x3. -/
def execFrameMcode3 (fr : Frame) (s : State) : Host.Outcome State Fault Refusal := performFrame 0x3#4 fr s

/-- FRAME_MCODE_4 (R104): the frame function of measurement code 0x4. -/
def execFrameMcode4 (fr : Frame) (s : State) : Host.Outcome State Fault Refusal := performFrame 0x4#4 fr s

/-- FRAME_MCODE_5 (R104): the frame function of measurement code 0x5. -/
def execFrameMcode5 (fr : Frame) (s : State) : Host.Outcome State Fault Refusal := performFrame 0x5#4 fr s

/-- FRAME_MCODE_6 (R104): the frame function of measurement code 0x6. -/
def execFrameMcode6 (fr : Frame) (s : State) : Host.Outcome State Fault Refusal := performFrame 0x6#4 fr s

/-- FRAME_MCODE_7 (R104): the frame function of measurement code 0x7. -/
def execFrameMcode7 (fr : Frame) (s : State) : Host.Outcome State Fault Refusal := performFrame 0x7#4 fr s

/-- FRAME_MCODE_8 (R104): the frame function of measurement code 0x8. -/
def execFrameMcode8 (fr : Frame) (s : State) : Host.Outcome State Fault Refusal := performFrame 0x8#4 fr s

/-- FRAME_MCODE_9 (R104): the frame function of measurement code 0x9. -/
def execFrameMcode9 (fr : Frame) (s : State) : Host.Outcome State Fault Refusal := performFrame 0x9#4 fr s

/-- FRAME_MCODE_A (R104): the frame function of measurement code 0xA. -/
def execFrameMcodeA (fr : Frame) (s : State) : Host.Outcome State Fault Refusal := performFrame 0xA#4 fr s

/-- FRAME_MCODE_B (R104): the frame function of measurement code 0xB. -/
def execFrameMcodeB (fr : Frame) (s : State) : Host.Outcome State Fault Refusal := performFrame 0xB#4 fr s

/-- FRAME_MCODE_C (R104): the frame function of measurement code 0xC. -/
def execFrameMcodeC (fr : Frame) (s : State) : Host.Outcome State Fault Refusal := performFrame 0xC#4 fr s

/-- FRAME_MCODE_D (R104): the frame function of measurement code 0xD. -/
def execFrameMcodeD (fr : Frame) (s : State) : Host.Outcome State Fault Refusal := performFrame 0xD#4 fr s

/-- FRAME_MCODE_E (R104): the frame function of measurement code 0xE. -/
def execFrameMcodeE (fr : Frame) (s : State) : Host.Outcome State Fault Refusal := performFrame 0xE#4 fr s

/-- FRAME_MCODE_F (R104): the frame function of measurement code 0xF. -/
def execFrameMcodeF (fr : Frame) (s : State) : Host.Outcome State Fault Refusal := performFrame 0xF#4 fr s

end Sys2Proof.Machine
end

