-- ==== Sys2Proof/Machine/Dispatch.lean ====
section
/-! DEFINITION. The instruction table: one arm for each constructor of Instr. -/

namespace Sys2Proof.Machine

def exec (i : Instr) (s : State) : Host.Outcome State Fault Refusal :=
  match i with
  | .decode f => Sys2Proof.Machine.execDecode f s
  | .rdVoltage => Sys2Proof.Machine.execRdVoltage s
  | .rdCurrent => Sys2Proof.Machine.execRdCurrent s
  | .rdResistance => Sys2Proof.Machine.execRdResistance s
  | .rdFrequency => Sys2Proof.Machine.execRdFrequency s
  | .rdReadable => Sys2Proof.Machine.execRdReadable s
  | .rdStatus => Sys2Proof.Machine.execRdStatus s
  | .rdFlags => Sys2Proof.Machine.execRdFlags s
  | .reset => Sys2Proof.Machine.execReset s
  | .frameMcode0 fr => Sys2Proof.Machine.execFrameMcode0 fr s
  | .frameMcode1 fr => Sys2Proof.Machine.execFrameMcode1 fr s
  | .frameMcode2 fr => Sys2Proof.Machine.execFrameMcode2 fr s
  | .frameMcode3 fr => Sys2Proof.Machine.execFrameMcode3 fr s
  | .frameMcode4 fr => Sys2Proof.Machine.execFrameMcode4 fr s
  | .frameMcode5 fr => Sys2Proof.Machine.execFrameMcode5 fr s
  | .frameMcode6 fr => Sys2Proof.Machine.execFrameMcode6 fr s
  | .frameMcode7 fr => Sys2Proof.Machine.execFrameMcode7 fr s
  | .frameMcode8 fr => Sys2Proof.Machine.execFrameMcode8 fr s
  | .frameMcode9 fr => Sys2Proof.Machine.execFrameMcode9 fr s
  | .frameMcodeA fr => Sys2Proof.Machine.execFrameMcodeA fr s
  | .frameMcodeB fr => Sys2Proof.Machine.execFrameMcodeB fr s
  | .frameMcodeC fr => Sys2Proof.Machine.execFrameMcodeC fr s
  | .frameMcodeD fr => Sys2Proof.Machine.execFrameMcodeD fr s
  | .frameMcodeE fr => Sys2Proof.Machine.execFrameMcodeE fr s
  | .frameMcodeF fr => Sys2Proof.Machine.execFrameMcodeF fr s

end Sys2Proof.Machine
end

