-- ==== Sys2Proof/Machine/Step.lean ====
section
/-! DEFINITION. One step: the block takes the next command of the host's stream and performs it whole (20_memory.md R44,
R49). -/

namespace Sys2Proof.Machine

/-- One step. With no whole command pending the block waits and holds its state (60_exceptions.md R176; 70_reset_and_hazards.md
R180; assumption 1). A reserved command byte is refused (30_encoding.md R67). Otherwise the command's bytes leave the
stream and the command is performed. -/
def step (s : State) : Host.Outcome State Fault Refusal :=
  match decode s.input with
  | .incomplete => .next s
  | .reserved c => .refused (.reservedCommand c)
  | .command i rest => exec i { s with input := rest }

/-- The state with an opcode-table word's bytes at the head of the command stream, where `step` takes its next command
(assumptions 7 and 15). -/
def State.withFetchWord (s : State) (nbits w : Nat) : State := { s with input := tableBytes nbits w ++ s.input }

end Sys2Proof.Machine
end

