-- ==== Sys2Proof/Machine/Assembler.lean ====
section
/-! DEFINITION. The textual syntax of a host command stream and the pseudo-commands with their expansions (30_encoding.md
R72, R73). The block has no such input: this is how the spec writes command streams (assumption 17). -/

namespace Sys2Proof.Machine

/-- A line of a command stream: a command, or a pseudo-command of R73. -/
inductive Pseudo where
  | command (i : Instr)
  /-- `DECODES "<text>"`, the ASCII codes of the text. -/
  | decodes (text : Bytes)
  | readAll
  /-- `SAMPLE [bytes]`. -/
  | sample (f : Bytes)
  deriving DecidableEq, Repr

/-- `RD_VOLTAGE`, `RD_CURRENT`, `RD_RESISTANCE`, `RD_FREQUENCY` in that order (R73). -/
def readAllCommands : List Instr := [.rdVoltage, .rdCurrent, .rdResistance, .rdFrequency]

/-- The expansions of R73. -/
def expand : Pseudo → List Instr
  | .command i => [i]
  | .decodes text => [.ofFrame text]
  | .readAll => readAllCommands
  | .sample f => .ofFrame f :: readAllCommands

/-- The bytes a host sends for a command stream (R64). -/
def streamBytes (is : List Instr) : Bytes := is.flatMap encode

/-- A blank between two words of a line. -/
def isBlank (c : Char) : Bool := c == ' ' || c == '\t'

/-- The digits of the spec's hex frame bytes (R72), each at the place of its value, in the upper case the spec writes. -/
def hexDigits : List Char := "0123456789ABCDEF".toList

/-- A hexadecimal digit's value: its place among the digits, in either letter case (assumption 17). -/
def hexDigit (c : Char) : Option Nat := hexDigits.idxOf? c.toUpper

/-- A frame byte: exactly two hexadecimal digits, the high nibble first. -/
def hexByte : List Char → Option Byte
  | [h, l] => (hexDigit h).bind fun hi => (hexDigit l).map fun lo => BitVec.ofNat 4 hi ++ BitVec.ofNat 4 lo
  | _ => none

/-- The line without its comment: `;` starts one (R72). -/
def stripComment (line : List Char) : List Char := line.takeWhile (· != ';')

/-- The word gathered so far, if it has a character. -/
def flushWord (cur : List Char) : List (List Char) := if cur.isEmpty then [] else [cur]

/-- The words of a line: blanks separate them, a bracket is a word of its own. -/
def lineWords (cur : List Char) : List Char → List (List Char)
  | [] => flushWord cur
  | c :: cs =>
    if isBlank c then flushWord cur ++ lineWords [] cs
    else if c == '[' || c == ']' then flushWord cur ++ [c] :: lineWords [] cs
    else lineWords (cur ++ [c]) cs

/-- The bracketed list of frame bytes, after its opening bracket; nothing may follow the closing one. -/
def hexList : List (List Char) → Option Bytes
  | [] => none
  | w :: ws =>
    if w = [']'] then (if ws.isEmpty then some [] else none)
    else
      match hexByte w, hexList ws with
      | some b, some bs => some (b :: bs)
      | _, _ => none

/-- A frame operand short enough for the length byte (R63). -/
def frameOperand (f : Bytes) : Option Bytes := if f.length ≤ 255 then some f else none

/-- The commands that are one word. -/
def oneWord (w : List Char) : Option Pseudo :=
  if w = "RD_VOLTAGE".toList then some (.command .rdVoltage)
  else if w = "RD_CURRENT".toList then some (.command .rdCurrent)
  else if w = "RD_RESISTANCE".toList then some (.command .rdResistance)
  else if w = "RD_FREQUENCY".toList then some (.command .rdFrequency)
  else if w = "RD_READABLE".toList then some (.command .rdReadable)
  else if w = "RD_STATUS".toList then some (.command .rdStatus)
  else if w = "RD_FLAGS".toList then some (.command .rdFlags)
  else if w = "RESET".toList then some (.command .reset)
  else if w = "READALL".toList then some .readAll
  else none

/-- A line by its words; `none` is a line that is not in the syntax, `some none` an empty one. -/
def parseWords : List (List Char) → Option (Option Pseudo)
  | [] => some none
  | [w] => (oneWord w).map some
  | w :: b :: ws =>
    if b = ['['] then
      if w = "DECODE".toList then ((hexList ws).bind frameOperand).map (fun f => some (.command (.ofFrame f)))
      else if w = "SAMPLE".toList then ((hexList ws).bind frameOperand).map (fun f => some (.sample f))
      else none
    else none

/-- A printable ASCII character other than the quote that ends the text of DECODES. -/
def isText (c : Char) : Bool := decide (' ' ≤ c) && decide (c ≤ '~') && c != '"'

/-- `DECODES "<text>"`, after the mnemonic: blanks, the quoted text, then blanks or a comment. -/
def parseQuoted (cs : List Char) : Option Pseudo :=
  match cs.dropWhile isBlank with
  | '"' :: rest =>
    match rest.dropWhile isText with
    | '"' :: after =>
      if (stripComment after).all isBlank then
        (frameOperand ((rest.takeWhile isText).map (fun c => BitVec.ofNat 8 c.toNat))).map .decodes
      else none
    | _ => none
  | _ => none

/-- One line of the textual syntax (R72, R73). -/
def parseLine (line : List Char) : Option (Option Pseudo) :=
  let body := line.dropWhile isBlank
  if "DECODES".toList.isPrefixOf body then (parseQuoted (body.drop 7)).map some
  else parseWords (lineWords [] (stripComment body))

/-- A command stream written one command per line, assembled to the commands it stands for. -/
def assemble : List (List Char) → Option (List Instr)
  | [] => some []
  | line :: lines =>
    match parseLine line, assemble lines with
    | some (some p), some is => some (expand p ++ is)
    | some none, some is => some is
    | _, _ => none

/-- The hexadecimal digit of a nibble. -/
def hexChar (n : BitVec 4) : Char := hexDigits.getD n.toNat '0'

/-- A frame byte as two hexadecimal digits. -/
def hexText (b : Byte) : List Char := [hexChar (b.extractLsb' 4 4), hexChar (b.extractLsb' 0 4)]

/-- A DECODE line (R72). -/
def decodeText (f : Bytes) : List Char :=
  "DECODE [".toList ++ ((f.map hexText).intersperse [' ']).flatten ++ [']']

/-- The line that stands for a command (R72). -/
def lineText : Instr → List Char
  | .decode f => decodeText f
  | .rdVoltage => "RD_VOLTAGE".toList
  | .rdCurrent => "RD_CURRENT".toList
  | .rdResistance => "RD_RESISTANCE".toList
  | .rdFrequency => "RD_FREQUENCY".toList
  | .rdReadable => "RD_READABLE".toList
  | .rdStatus => "RD_STATUS".toList
  | .rdFlags => "RD_FLAGS".toList
  | .reset => "RESET".toList
  | .frameMcode0 fr => decodeText (frameBytes 0x0#4 fr)
  | .frameMcode1 fr => decodeText (frameBytes 0x1#4 fr)
  | .frameMcode2 fr => decodeText (frameBytes 0x2#4 fr)
  | .frameMcode3 fr => decodeText (frameBytes 0x3#4 fr)
  | .frameMcode4 fr => decodeText (frameBytes 0x4#4 fr)
  | .frameMcode5 fr => decodeText (frameBytes 0x5#4 fr)
  | .frameMcode6 fr => decodeText (frameBytes 0x6#4 fr)
  | .frameMcode7 fr => decodeText (frameBytes 0x7#4 fr)
  | .frameMcode8 fr => decodeText (frameBytes 0x8#4 fr)
  | .frameMcode9 fr => decodeText (frameBytes 0x9#4 fr)
  | .frameMcodeA fr => decodeText (frameBytes 0xA#4 fr)
  | .frameMcodeB fr => decodeText (frameBytes 0xB#4 fr)
  | .frameMcodeC fr => decodeText (frameBytes 0xC#4 fr)
  | .frameMcodeD fr => decodeText (frameBytes 0xD#4 fr)
  | .frameMcodeE fr => decodeText (frameBytes 0xE#4 fr)
  | .frameMcodeF fr => decodeText (frameBytes 0xF#4 fr)

end Sys2Proof.Machine
end

