-- ==== Sys2Proof/Safety.lean ====
section
/-! DEFINITION. What the claims are stated in terms of: which instructions are DECODEs, the safe states, a command list
performed in order, and the value of a binary64 number. Nothing here is called by the machine. -/

namespace Sys2Proof.Machine

/-- The frame and measurement code of an instruction that is a DECODE of a frame of valid layout (30_encoding.md R60):
the sixteen frame functions, and `decode` with at least 12 bytes. -/
def frameOf : Instr → Option (BitVec 4 × Frame)
  | .decode f => parseFrame f
  | .rdVoltage => none
  | .rdCurrent => none
  | .rdResistance => none
  | .rdFrequency => none
  | .rdReadable => none
  | .rdStatus => none
  | .rdFlags => none
  | .reset => none
  | .frameMcode0 fr => some (0x0#4, fr)
  | .frameMcode1 fr => some (0x1#4, fr)
  | .frameMcode2 fr => some (0x2#4, fr)
  | .frameMcode3 fr => some (0x3#4, fr)
  | .frameMcode4 fr => some (0x4#4, fr)
  | .frameMcode5 fr => some (0x5#4, fr)
  | .frameMcode6 fr => some (0x6#4, fr)
  | .frameMcode7 fr => some (0x7#4, fr)
  | .frameMcode8 fr => some (0x8#4, fr)
  | .frameMcode9 fr => some (0x9#4, fr)
  | .frameMcodeA fr => some (0xA#4, fr)
  | .frameMcodeB fr => some (0xB#4, fr)
  | .frameMcodeC fr => some (0xC#4, fr)
  | .frameMcodeD fr => some (0xD#4, fr)
  | .frameMcodeE fr => some (0xE#4, fr)
  | .frameMcodeF fr => some (0xF#4, fr)

/-- The instruction is a DECODE, of a frame of any length. -/
def isDecode (i : Instr) : Bool :=
  match i with
  | .decode _ => true
  | .rdVoltage => false
  | .rdCurrent => false
  | .rdResistance => false
  | .rdFrequency => false
  | .rdReadable => false
  | .rdStatus => false
  | .rdFlags => false
  | .reset => false
  | .frameMcode0 _ => true
  | .frameMcode1 _ => true
  | .frameMcode2 _ => true
  | .frameMcode3 _ => true
  | .frameMcode4 _ => true
  | .frameMcode5 _ => true
  | .frameMcode6 _ => true
  | .frameMcode7 _ => true
  | .frameMcode8 _ => true
  | .frameMcode9 _ => true
  | .frameMcodeA _ => true
  | .frameMcodeB _ => true
  | .frameMcodeC _ => true
  | .frameMcodeD _ => true
  | .frameMcodeE _ => true
  | .frameMcodeF _ => true

/-- The sub-range index is at or past the end of the selected range table (40_tables.md R88; 60_exceptions.md R162). -/
def subrangeOutOfTable (mt : MeasType) (sub : BitVec 3) : Bool :=
  match mt.table with
  | none => false
  | some rt => decide (rt.length ≤ sub.toNat)

/-- The block's registers in both states are the same: the mutable state of 10_state.md R20. -/
def sameRegisters (s t : State) : Prop :=
  s.latV = t.latV ∧ s.latI = t.latI ∧ s.latR = t.latR ∧ s.latF = t.latF ∧
    s.readable = t.readable ∧ s.status = t.status ∧ s.flags = t.flags

/-- The state after a failed DECODE with error code `code` (60_exceptions.md R165), from the state before it. -/
def failedDecode (code : BitVec 2) (s : State) : State :=
  { s with
    latV := none, latI := none, latR := none, latF := none
    readable := [], flags := 0#32, status := packStatus false 0#3 0#4 false 0#3 false code true
    sent := s.sent ++ [code.setWidth 8, 0x00#8, 0x00#8] }

/-- A safe state. Each field is a promise the spec makes of every state the block can be in. -/
structure Safe (s : State) : Prop where
  /-- ERR = 3 and TARGET = 5..7 are never written (R26). -/
  legalStatus : statusErr s.status ≠ 3#2 ∧ (statusTarget s.status).toNat ≤ 4
  /-- At most one latch holds a value, and it is the one TARGET names (R132). -/
  targetNamesTheLatch : ∀ q, (s.latch q).isSome = true ↔ statusTarget s.status = targetCode (some q)
  /-- The latched value has the sign STATUS.NEG says (R26, R113). -/
  latchSign : ∀ q d, s.latch q = some d → BitVec.ofBool d.neg = statusNeg s.status
  /-- No DECODE since reset: STATUS, FLAGS and READABLE at their reset values (R32, R146). -/
  beforeDecode : statusDone s.status = 0#1 → s.status = 0#16 ∧ s.flags = 0#32 ∧ s.readable = []
  /-- After a failed DECODE only DONE and ERR are set, and no value is visible (R26, R165). -/
  afterFailure : statusErr s.status ≠ 0#2 →
    s.status = packStatus false 0#3 0#4 false 0#3 false (statusErr s.status) true ∧ s.flags = 0#32 ∧ s.readable = []
  /-- FLAGS has no bit past the flag table (R29). -/
  flagsInTable : ∀ k, s.params.cfg.flagCount ≤ k → s.flags.getLsbD k = false
  /-- STATUS.ANYFLAG says whether a display entry's bit of FLAGS is set (R26, R29). -/
  anyflagAgrees : statusAnyflag s.status = 1#1 ↔
    ∃ k fb, s.params.cfg.ft[k]? = some fb ∧ isSign fb = false ∧ s.flags.getLsbD k = true

/-- The commands of a list performed one after another, each on the state the one before it left, until one does not
answer a next state (20_memory.md R49). -/
def performAll : List Instr → State → Host.Outcome State Fault Refusal
  | [], s => .next s
  | i :: is, s =>
    match exec i s with
    | .next t => performAll is t
    | .fault r => .fault r
    | .refused r => .refused r

/-- A binary64 number that is neither infinite nor a NaN. -/
def isFinite64 (b : BitVec 64) : Bool := b.extractLsb' 52 11 != 0x7FF#11

/-- The value of a finite binary64 number: sign, exponent field, fraction field (IEEE 754; 00_scope.md R14). -/
def value64 (b : BitVec 64) : ℚ :=
  let e := (b.extractLsb' 52 11).toNat
  let f := (b.extractLsb' 0 52).toNat
  (if b.getLsbD 63 then -1 else 1) *
    (if e = 0 then (f : ℚ) * 2 ^ (-1074 : ℤ) else ((2 ^ 52 + f : ℕ) : ℚ) * 2 ^ ((e : ℤ) - 1075))

end Sys2Proof.Machine
end

