-- ==== Sys2Proof/Certificates/Slice0/Obligations.lean ====
section
/-! DEFINITION. The statements for the provers. Each formalises rules of spec/, which its docstring and OBLIGATIONS.json
name. -/

open Sys2Proof Sys2Proof.Machine

/-! ### Commands and their bytes -/

/-- 20_memory.md R44, R49: the next step performs the next whole command of the stream, which is gone from the stream
when the command is performed. -/
def Obligations.StepPerformsNextCommand : Prop :=
  (∀ s i rest, decode s.input = .command i rest → step s = exec i { s with input := rest }) ∧
  (∀ s i rest, i.wf = true → s.input = encode i ++ rest → step s = exec i { s with input := rest })

/-- The model's choice (assumption 1), from R176 ("Between commands it holds its state unchanged") and R180 ("the block
waits for its first command"): with no byte, or a DECODE not yet sent in full, a step changes nothing. -/
def Obligations.StepWaitsWithoutWholeCommand : Prop :=
  ∀ s, (s.input = [] ∨ s.input = [0x01#8] ∨
      ∃ l body, s.input = 0x01#8 :: l :: body ∧ body.length < l.toNat) → step s = .next s

/-- R67, as assumption 8 reads it step by step: a reserved command byte has no meaning. The stream's run ends in the refusal however many steps it is given, and
no command after the byte is performed. -/
def Obligations.ReservedByteRefusesTheStream : Prop :=
  ∀ (is : List Instr) (c : Byte) (rest : Bytes) (s : State) (n : Nat),
    (∀ i ∈ is, i.wf = true) → cfgWf s.params.cfg = true →
    (c.toNat = 0 ∨ (0x02 ≤ c.toNat ∧ c.toNat ≤ 0x0F) ∨ (0x14 ≤ c.toNat ∧ c.toNat ≤ 0x1F) ∨
      (0x23 ≤ c.toNat ∧ c.toNat ≤ 0xFE)) →
    s.input = streamBytes is ++ c :: rest →
    Host.Core.run Sys2Proof.core (is.length + 1 + n) s = .refused (.reservedCommand c)

/-- R49: commands take effect in the order the host issues them. A run over the bytes of a command list is the list
performed one command after another, whatever bytes follow. -/
def Obligations.StreamRunsInIssueOrder : Prop :=
  ∀ (is : List Instr) (rest : Bytes) (s : State), (∀ i ∈ is, i.wf = true) →
    s.input = streamBytes is ++ rest →
    Host.Core.run Sys2Proof.core is.length s = performAll is { s with input := rest }

/-- R63, R64: reading the bytes of a well-formed command gives that command and leaves the bytes after it. -/
def Obligations.DecodeInvertsEncode : Prop :=
  ∀ (i : Instr) (rest : Bytes), i.wf = true → decode (encode i ++ rest) = .command i rest

/-- R63, R64: a command that is read is well-formed and its bytes are the ones read: no two byte strings are one
command. -/
def Obligations.EncodeInvertsDecode : Prop :=
  ∀ (bs : Bytes) (i : Instr) (rest : Bytes), decode bs = .command i rest → i.wf = true ∧ encode i ++ rest = bs

/-- R63, R64 and 95_test_vectors.md V1, V81: words written out from the spec's encodings. -/
def Obligations.SpecWordsDecode : Prop :=
  decode [0x01#8, 0x0C#8, 0x30#8, 0x30#8, 0x31#8, 0x30#8, 0x30#8, 0x30#8, 0x3B#8, 0x34#8, 0x30#8, 0x30#8, 0x30#8, 0x30#8]
    = .command (.frameMcodeB ⟨0#3, 6#5, 0x30#8, 0x31#8, 0x30#8, 0x30#8, 0x30#8, 3#4, 0x34#8, 0x30#8, 0x30#8, 0x30#8,
        0x30#8, []⟩) [] ∧
  decode [0x01#8, 0x00#8] = .command (.decode []) [] ∧
  decode [0x10#8] = .command .rdVoltage [] ∧ decode [0x11#8] = .command .rdCurrent [] ∧
  decode [0x12#8] = .command .rdResistance [] ∧ decode [0x13#8] = .command .rdFrequency [] ∧
  decode [0x20#8] = .command .rdReadable [] ∧ decode [0x21#8] = .command .rdStatus [] ∧
  decode [0x22#8] = .command .rdFlags [] ∧ decode [0xFF#8] = .command .reset []

/-- R60, R61, R62: the fields of a frame of valid layout are masks of its bytes, and a frame has a valid layout exactly
when it has 12 bytes. -/
def Obligations.FrameFieldsAreMasksOfBytes : Prop :=
  (∀ f : Bytes, (parseFrame f).isSome = true ↔ 12 ≤ f.length) ∧
  ∀ (f : Bytes) (c : BitVec 4) (fr : Frame), parseFrame f = some (c, fr) →
    (∃ b, f[0]? = some b ∧ fr.sub.setWidth 8 = b &&& 0x07#8) ∧
    (∃ b, f[6]? = some b ∧ c.setWidth 8 = b &&& 0x0F#8) ∧
    window fr = (f.drop 1).take 5 ∧
    [fr.s7, fr.s8, fr.s9, fr.s10, fr.s11] = (f.drop 7).take 5

/-- R69 (and R61): the bits no rule reads have no effect. Two frames of at least 12 bytes that agree in SUBRANGE, MCODE, the
magnitude and the bits the flag table names give the same outcome, from every state. -/
def Obligations.IgnoredBitsHaveNoEffect : Prop :=
  ∀ (f g : Bytes) (s : State), 12 ≤ f.length → 12 ≤ g.length →
    f[0]?.map (· &&& 0x07#8) = g[0]?.map (· &&& 0x07#8) →
    f[6]?.map (· &&& 0x0F#8) = g[6]?.map (· &&& 0x0F#8) →
    (f.drop 1).take 5 = (g.drop 1).take 5 →
    (∀ fb ∈ s.params.cfg.ft, f[fb.off]?.map (· &&& fb.mask) = g[fb.off]?.map (· &&& fb.mask)) →
    exec (.decode f) s = exec (.decode g) s

/-- R71, R104: byte 6 of a DECODE's frame selects one of the sixteen frame functions, and the DECODE is that function. -/
def Obligations.ByteSixSelectsTheFunction : Prop :=
  (∀ (f : Bytes) (c : BitVec 4) (fr : Frame) (s : State), parseFrame f = some (c, fr) →
    exec (.decode f) s = exec (Instr.ofCode c fr) s) ∧
  (∀ fr, (List.range 16).map (fun c => Instr.ofCode (BitVec.ofNat 4 c) fr) =
    [.frameMcode0 fr, .frameMcode1 fr, .frameMcode2 fr, .frameMcode3 fr, .frameMcode4 fr, .frameMcode5 fr,
     .frameMcode6 fr, .frameMcode7 fr, .frameMcode8 fr, .frameMcode9 fr, .frameMcodeA fr, .frameMcodeB fr,
     .frameMcodeC fr, .frameMcodeD fr, .frameMcodeE fr, .frameMcodeF fr])

/-! ### DECODE -/

/-- R161: every frame of fewer than 12 bytes raises InvalidFrame, whatever its bytes; the state after is given whole. -/
def Obligations.ShortFrameIsInvalidFrame : Prop :=
  ∀ (f : Bytes) (s : State), cfgWf s.params.cfg = true → f.length < 12 →
    exec (.decode f) s = .next (failedDecode 1#2 s)

/-- R105, R110, R113, R121, R126, R127, R130, R131: the next state of a DECODE whose measurement type has NO range table,
for `decode` with at least 12 bytes and for each of frameMcode0 .. frameMcodeF: the label is the type's name, the
multiplier 1, no sub-range can be out of range. -/
def Obligations.TablelessDecodeCommitsReading : Prop :=
  ∀ (i : Instr) (c : BitVec 4) (fr : Frame) (s : State) (mt : MeasType) (m : Dec),
    frameOf i = some (c, fr) → cfgWf s.params.cfg = true → s.params.cfg.mt[c.toNat]? = some mt → mt.table = none →
    magDecode (window fr) = some m →
    let scan := flagScan s.params.cfg.ft fr
    let raw : Dec := ⟨xor m.neg scan.neg, m.coeff, m.exp⟩
    let readable := fmt4 s.params.negZero raw ++ [0x20#8] ++ mt.name ++
      (if scan.any then 0x20#8 :: join scan.tags else [])
    let si (q : Quantity) : Option Dec :=
      (unitClass mt.name).bind (fun p => if p.1 = q then some ⟨raw.neg, raw.coeff, raw.exp + p.2⟩ else none)
    exec i s = .next { s with
      latV := si .voltage, latI := si .current, latR := si .resistance, latF := si .frequency
      readable := readable
      flags := scan.hits
      status := packStatus scan.any fr.sub c false (targetCode ((unitClass mt.name).map Prod.fst)) scan.neg 0#2 true
      sent := s.sent ++ 0x00#8 :: (leBytes 2 (BitVec.ofNat 16 readable.length) ++ readable) }

/-- R104, R110, R113, R121, R126, R127, R130, R131: the next state of a DECODE whose measurement type has a range table and
whose sub-range is in it, for `decode` with at least 12 bytes and for each of frameMcode0 .. frameMcodeF. -/
def Obligations.TabledDecodeCommitsReading : Prop :=
  ∀ (i : Instr) (c : BitVec 4) (fr : Frame) (s : State) (mt : MeasType) (rt : List RangeEntry) (e : RangeEntry) (m : Dec),
    frameOf i = some (c, fr) → cfgWf s.params.cfg = true → s.params.cfg.mt[c.toNat]? = some mt → mt.table = some rt →
    rt[fr.sub.toNat]? = some e →
    magDecode (window fr) = some m →
    let scan := flagScan s.params.cfg.ft fr
    let raw : Dec := ⟨xor m.neg scan.neg, m.coeff, m.exp + e.mexp⟩
    let readable := fmt4 s.params.negZero raw ++ [0x20#8] ++ e.unit ++
      (if scan.any then 0x20#8 :: join scan.tags else [])
    let si (q : Quantity) : Option Dec :=
      (unitClass e.unit).bind (fun p => if p.1 = q then some ⟨raw.neg, raw.coeff, raw.exp + p.2⟩ else none)
    exec i s = .next { s with
      latV := si .voltage, latI := si .current, latR := si .resistance, latF := si .frequency
      readable := readable
      flags := scan.hits
      status := packStatus scan.any fr.sub c true (targetCode ((unitClass e.unit).map Prod.fst)) scan.neg 0#2 true
      sent := s.sent ++ 0x00#8 :: (leBytes 2 (BitVec.ofNat 16 readable.length) ++ readable) }

/-- R162: a sub-range at or past the end of the selected range table raises InvalidFrame, whatever the magnitude; a
type without a table, or with one of 8 entries, admits every sub-range. -/
def Obligations.SubrangeOutOfTableIsInvalidFrame : Prop :=
  (∀ (i : Instr) (c : BitVec 4) (fr : Frame) (s : State) (mt : MeasType) (rt : List RangeEntry),
    frameOf i = some (c, fr) → cfgWf s.params.cfg = true → s.params.cfg.mt[c.toNat]? = some mt → mt.table = some rt →
    rt.length ≤ fr.sub.toNat → exec i s = .next (failedDecode 1#2 s)) ∧
  (∀ (mt : MeasType) (sub : BitVec 3), (mt.table = none ∨ ∃ rt, mt.table = some rt ∧ rt.length = 8) →
    (lookupRange mt sub).isSome = true)

/-- R109, R163: a window that is not numeric, on a frame whose sub-range is in its table, raises InvalidMagnitude under
MAG_POLICY = ERROR; under ZERO the DECODE goes on as for the window "00000". -/
def Obligations.NonNumericMagnitudeFollowsPolicy : Prop :=
  ∀ (i : Instr) (c : BitVec 4) (fr : Frame) (s : State) (mt : MeasType),
    frameOf i = some (c, fr) → cfgWf s.params.cfg = true → s.params.cfg.mt[c.toNat]? = some mt →
    (∀ rt, mt.table = some rt → fr.sub.toNat < rt.length) →
    magDecode (window fr) = none →
    (s.params.magPolicy = .error → exec i s = .next (failedDecode 2#2 s)) ∧
    (s.params.magPolicy = .zero →
      exec i s = exec (Instr.ofCode c { fr with w1 := 0x30#8, w2 := 0x30#8, w3 := 0x30#8, w4 := 0x30#8, w5 := 0x30#8 }) s)

/-- R166: every DECODE completes, and reports the first error in the order of the algorithm's steps: length, then
sub-range, then magnitude; the code is in STATUS.ERR and in the first response byte. -/
def Obligations.FirstErrorInStepOrderIsReported : Prop :=
  ∀ (f : Bytes) (s : State), cfgWf s.params.cfg = true →
    ∃ t, exec (.decode f) s = .next t ∧
      (f.length < 12 → statusErr t.status = 1#2) ∧
      (∀ (c : BitVec 4) (fr : Frame) (mt : MeasType), parseFrame f = some (c, fr) → s.params.cfg.mt[c.toNat]? = some mt →
        statusErr t.status =
          if subrangeOutOfTable mt fr.sub = true then 1#2
          else if magDecode (window fr) = none ∧ s.params.magPolicy = .error then 2#2
          else 0#2) ∧
      t.sent = s.sent ++ (statusErr t.status).setWidth 8 :: (leBytes 2 (BitVec.ofNat 16 t.readable.length) ++ t.readable)

/-- R165: a DECODE that reports an error has exactly the error commit's effect. -/
def Obligations.FailedDecodeWritesTheErrorCommit : Prop :=
  ∀ (i : Instr) (s t : State), isDecode i = true → exec i s = .next t → statusErr t.status ≠ 0#2 →
    t = failedDecode (statusErr t.status) s

/-- R31: a DECODE reads no register: from any two states with the same constants, the same DECODE gives the same registers
and the same response. -/
def Obligations.DecodeReadsNoRegister : Prop :=
  ∀ (i : Instr) (s s' t t' : State), isDecode i = true → s.params = s'.params →
    exec i s = .next t → exec i s' = .next t' →
    sameRegisters t t' ∧ ∃ r, t.sent = s.sent ++ r ∧ t'.sent = s'.sent ++ r

/-- R132: after any DECODE at most one latch holds a value, and it is the one STATUS.TARGET names; after a failed one none
does. -/
def Obligations.DecodeSetsAtMostTheTargetLatch : Prop :=
  ∀ (i : Instr) (s t : State), isDecode i = true → exec i s = .next t →
    (∀ q r, (t.latch q).isSome = true → (t.latch r).isSome = true → q = r) ∧
    (∀ q, (t.latch q).isSome = true ↔ statusTarget t.status = targetCode (some q)) ∧
    (statusErr t.status ≠ 0#2 → ∀ q, t.latch q = none)

/-! ### Accessors and RESET -/

/-- R140 to R143: a latch read is one command byte. Of a latch that holds a value it responds with the value's binary64,
least significant byte first; of an unset latch with some NaN (which one is a free value). It changes no register. That a
NaN read also counts one draw is the model's choice (assumption 3: the counter is the free value's argument, not state of
the block). -/
def Obligations.LatchReadsRespond : Prop :=
  ∀ (i : Instr) (q : Quantity) (c : Byte) (s : State),
    (i, q, c) ∈ [(Instr.rdVoltage, Quantity.voltage, 0x10#8), (.rdCurrent, .current, 0x11#8),
      (.rdResistance, .resistance, 0x12#8), (.rdFrequency, .frequency, 0x13#8)] →
    cfgWf s.params.cfg = true →
    encode i = [c] ∧
    (∀ d, s.latch q = some d → exec i s = .next { s with sent := s.sent ++ leBytes 8 (binary64 d) }) ∧
    (s.latch q = none → ∃ b, isNaN b = true ∧
      exec i s = .next { s with sent := s.sent ++ leBytes 8 b, nanDraws := s.nanDraws + 1 })

/-- R145: RD_READABLE is the command byte 0x20 and responds with the length as 2 bytes and the bytes of READABLE. -/
def Obligations.ReadReadableResponds : Prop :=
  encode .rdReadable = [0x20#8] ∧ ∀ s : State, cfgWf s.params.cfg = true → s.readable.length ≤ 65535 →
    exec .rdReadable s = .next { s with
      sent := s.sent ++ (BitVec.ofNat 8 (s.readable.length % 256) :: BitVec.ofNat 8 (s.readable.length / 256) ::
        s.readable) }

/-- R146, R147, R43: RD_STATUS and RD_FLAGS respond with their register, least significant byte first. -/
def Obligations.ReadStatusAndFlagsRespond : Prop :=
  encode .rdStatus = [0x21#8] ∧ encode .rdFlags = [0x22#8] ∧ ∀ s : State, cfgWf s.params.cfg = true →
    (∃ b0 b1 : Byte, b1 ++ b0 = s.status ∧ exec .rdStatus s = .next { s with sent := s.sent ++ [b0, b1] }) ∧
    (∃ b0 b1 b2 b3 : Byte, b3 ++ b2 ++ b1 ++ b0 = s.flags ∧
      exec .rdFlags s = .next { s with sent := s.sent ++ [b0, b1, b2, b3] })

/-- R149: RESET is the command byte 0xFF. It puts every register at its power-on value, leaves the constants and sends
nothing. That the model's own fields (the bytes still to come, the responses already sent, the count of NaN draws) go on
over it is the model's choice (assumptions 1 to 3). -/
def Obligations.ResetRestoresPowerOn : Prop :=
  encode .reset = [0xFF#8] ∧ ∀ s : State, cfgWf s.params.cfg = true →
    exec .reset s = .next { State.reset with
      params := s.params, input := s.input, sent := s.sent, nanDraws := s.nanDraws }

/-- R186: a latch read after a DECODE that did not target the latch responds with a NaN, whatever the latch held before. -/
def Obligations.UntargetedLatchReadsNaN : Prop :=
  ∀ (i j : Instr) (q : Quantity) (s t : State),
    (j, q) ∈ [(Instr.rdVoltage, Quantity.voltage), (.rdCurrent, .current), (.rdResistance, .resistance),
      (.rdFrequency, .frequency)] →
    isDecode i = true → exec i s = .next t → statusTarget t.status ≠ targetCode (some q) →
    ∃ b u, isNaN b = true ∧ exec j t = .next u ∧ u.sent = t.sent ++ leBytes 8 b

/-! ### The whole machine -/

/-- R20, R23, R24, R148 and R149: only DECODE and RESET write a register. -/
def Obligations.OnlyDecodeAndResetWriteRegisters : Prop :=
  ∀ (i : Instr) (s t : State), exec i s = .next t → isDecode i = false → i ≠ .reset → sameRegisters t s

/-- R28: no command writes the configuration or a parameter. With it, what the model's own fields do: a command leaves the
bytes after it in the stream, takes back no response byte and never un-draws a NaN. -/
def Obligations.NoCommandWritesTheConfiguration : Prop :=
  ∀ (i : Instr) (s t : State), exec i s = .next t →
    t.params = s.params ∧ t.input = s.input ∧ (∃ r, t.sent = s.sent ++ r) ∧
      (isDecode i = true → t.nanDraws = s.nanDraws) ∧ s.nanDraws ≤ t.nanDraws

/-- R86: under a configuration that fails WF no command has a step. -/
def Obligations.UnadmittedConfigurationHasNoStep : Prop :=
  ∀ (i : Instr) (s : State), cfgWf s.params.cfg = false → exec i s = .refused .cfgNotAdmitted

/-- R44, R164: under an admitted configuration every command completes, from every state and on every operand. -/
def Obligations.EveryCommandCompletes : Prop :=
  ∀ (i : Instr) (s : State), cfgWf s.params.cfg = true → ∃ t, exec i s = .next t

/-- R67, R86, R164: a step is refused only for a reserved command byte or a configuration that fails WF. -/
def Obligations.StepRefusesOnlyReservedOrUnadmitted : Prop :=
  ∀ (s : State) (r : Refusal), step s = .refused r →
    (r = .cfgNotAdmitted ∧ cfgWf s.params.cfg = false) ∨
    (∃ c rest, r = .reservedCommand c ∧ s.input = c :: rest ∧ c ∉ commandBytes)

/-- R32, R180: the power-on state of the registers. -/
def Obligations.PowerOnRegisters : Prop :=
  (∀ q, State.reset.latch q = none) ∧ State.reset.readable = [] ∧ State.reset.status = 0#16 ∧ State.reset.flags = 0#32

/-- The state after reset is safe. -/
def Obligations.ResetStateIsSafe : Prop := Safe State.reset

/-- R26, R29, R32, R132, R165: every step from a safe state leads to a safe state. -/
def Obligations.StepKeepsSafe : Prop :=
  ∀ s t : State, Safe s → step s = .next t → Safe t

/-- R25, R86 (`wf_readable_bound`): READABLE never grows past 65535 bytes, so that its length fits the 2 bytes of a
response. -/
def Obligations.ReadableStaysWithin65535 : Prop :=
  ∀ s t : State, s.readable.length ≤ 65535 → step s = .next t → t.readable.length ≤ 65535

/-! ### The lookup engine and the mux -/

/-- R87: for an admitted configuration the measurement-type lookup never fails. -/
def Obligations.MeasurementLookupIsTotal : Prop :=
  ∀ (cfg : Cfg) (c : BitVec 4), cfgWf cfg = true → ∃ mt, cfg.mt[c.toNat]? = some mt

/-- R125: the unit classes, by exact byte-string equality. -/
def Obligations.UnitClassIsTheTable : Prop :=
  ∀ (label : Bytes) (q : Quantity) (k : Int), unitClass label = some (q, k) ↔
    (label, q, k) ∈
      [(ascii "V", Quantity.voltage, (0 : Int)), (ascii "mV", .voltage, -3), (ascii "A", .current, 0),
       (ascii "mA", .current, -3), (ascii "uA", .current, -6), (ascii "Ohm", .resistance, 0), (ascii "kOhm", .resistance, 3),
       (ascii "MOhm", .resistance, 6), (ascii "Hz", .frequency, 0), (ascii "kHz", .frequency, 3), (ascii "MHz", .frequency, 6)]

/-- R90: the reference configuration passes WF and agrees with the settled facts of R94 (as assumption 18 reads them). -/
def Obligations.ReferenceConfigurationIsAdmitted : Prop := cfgWf refCfg = true ∧ cfgSettled refCfg = true

/-! ### The magnitude decoder -/

/-- R107, over the classes of R106: which windows are numeric, and that a numeric one holds at least four digits. -/
def Obligations.NumericWindows : Prop :=
  ∀ fr : Frame,
    ((magDecode (window fr)).isSome = true ↔
      (∀ w ∈ window fr, (0x30 ≤ w.toNat ∧ w.toNat ≤ 0x39) ∨ w = 0x2E#8) ∧ (window fr).count 0x2E#8 ≤ 1) ∧
    ((magDecode (window fr)).isSome = true → 4 ≤ ((window fr).filter isDigit).length)

/-- R108: the value of a numeric window: its digits read left to right, over ten to the number of digits after the point;
never negative, the coefficient at most 99999. -/
def Obligations.WindowValue : Prop :=
  (∀ fr : Frame, (∀ w ∈ window fr, isDigit w = true) →
    magDecode (window fr) = some ⟨false, digitsValue (window fr), 0⟩) ∧
  (∀ (fr : Frame) (before after : Bytes), window fr = before ++ 0x2E#8 :: after →
    (∀ w ∈ before ++ after, isDigit w = true) →
    magDecode (window fr) = some ⟨false, digitsValue (before ++ after), -(after.length : Int)⟩) ∧
  (∀ (fr : Frame) (m : Dec), magDecode (window fr) = some m → m.neg = false ∧ m.coeff ≤ 99999)

/-! ### The flag scan and STATUS -/

/-- R111: an entry fires exactly when the bit its mask names is 1 in the frame byte its offset names. -/
def Obligations.EntryFiresOnItsBit : Prop :=
  ∀ (c : BitVec 4) (fr : Frame) (fb : FlagBit), 7 ≤ fb.off → fb.off ≤ 11 →
    (fires fr fb = true ↔ ∃ b, (frameBytes c fr)[fb.off]? = some b ∧ b &&& fb.mask ≠ 0#8)

/-- R112: bit `k` of `hits` is set exactly when entry `k` fires, sign entries included; the bits past the table are
clear. -/
def Obligations.HitsHasOneBitPerEntry : Prop :=
  ∀ (ft : List FlagBit) (fr : Frame) (k : Nat), ft.length ≤ 32 →
    ((flagScan ft fr).hits.getLsbD k = true ↔ ∃ fb, ft[k]? = some fb ∧ fires fr fb = true)

/-- R113: the reading is negated when an odd number of sign entries fires, a zero magnitude too; a sign entry is no
tag. -/
def Obligations.NegationIsParityOfSignEntries : Prop :=
  ∀ (ft : List FlagBit) (fr : Frame),
    ((flagScan ft fr).neg = true ↔ ((ft.filter (fun fb => isSign fb && fires fr fb)).length % 2 = 1)) ∧
    (∀ (m : Dec) (k : Int), rawOf m k (flagScan ft fr).neg = ⟨xor m.neg (flagScan ft fr).neg, m.coeff, m.exp + k⟩) ∧
    (ascii "-" ∉ (flagScan ft fr).tags)

/-- R114: the tags are those of the display entries that fire, in table order; `anyflag` is set exactly when one
fires; the tags are joined by single commas. -/
def Obligations.TagsInTableOrder : Prop :=
  (∀ (ft : List FlagBit) (fr : Frame),
    (flagScan ft fr).tags = (ft.filter (fun fb => !isSign fb && fires fr fb)).map FlagBit.tag ∧
    ((flagScan ft fr).any = true ↔ ∃ fb ∈ ft, isSign fb = false ∧ fires fr fb = true)) ∧
  (∀ tags : List Bytes, join tags = (tags.intersperse [0x2C#8]).flatten)

/-- R26: the eight fields of STATUS are where the layout puts them. -/
def Obligations.StatusFieldsReadBack : Prop :=
  ∀ (a : Bool) (sub : BitVec 3) (c : BitVec 4) (tb : Bool) (tg : BitVec 3) (n : Bool) (e : BitVec 2) (d : Bool),
    let st := packStatus a sub c tb tg n e d
    statusDone st = BitVec.ofBool d ∧ statusErr st = e ∧ statusNeg st = BitVec.ofBool n ∧ statusTarget st = tg ∧
    statusTabled st = BitVec.ofBool tb ∧ statusMcode st = c ∧ statusSubrange st = sub ∧
    statusAnyflag st = BitVec.ofBool a ∧
    st.toNat = d.toNat + 2 * e.toNat + 8 * n.toNat + 16 * tg.toNat + 128 * tb.toNat + 256 * c.toNat + 4096 * sub.toNat +
      32768 * a.toNat

/-! ### Numbers and their spellings -/

/-- R13: the test `sameDec` decides "equal as data": equal values, and for the value 0 equal signs. -/
def Obligations.SameDecIsEqualityAsData : Prop :=
  ∀ a b : Dec, sameDec a b = true ↔ val a = val b ∧ (val a = 0 → a.neg = b.neg)

/-- R13, R14, R120: decimals equal as data are spelled and exported alike. -/
def Obligations.EqualDecimalsAreSpelledAlike : Prop :=
  ∀ (a b : Dec), sameDec a b = true → (∀ p, fmt4 p a = fmt4 p b) ∧ binary64 a = binary64 b

/-- R120: exactly 4 decimals, rounded half away from zero, a minus sign for a negated value (of a negated zero as NEG_ZERO
says), the integer part without leading zeros. -/
def Obligations.FormatterRoundsHalfAwayFromZero : Prop :=
  ∀ (p : NegZero) (d : Dec),
    let n := ⌊|val d| * 10000 + 1 / 2⌋₊
    fmt4 p d = (if d.neg = true ∧ (d.coeff ≠ 0 ∨ p = .minus) then [0x2D#8] else []) ++
      dec (n / 10000) ++ [0x2E#8] ++ pad4 (n % 10000)

/-- R14: `dec` is the shortest decimal spelling (all digits, no leading zero but in "0" itself), `pad4` has exactly 4
digits, and both spell their number. -/
def Obligations.DecimalSpellings : Prop :=
  (∀ n, digitsValue (dec n) = n ∧ (∀ b ∈ dec n, isDigit b = true) ∧ dec n ≠ [] ∧
    ((dec n).head? = some 0x30#8 → n = 0 ∧ dec n = [0x30#8])) ∧
  (∀ n, n < 10000 → (pad4 n).length = 4 ∧ digitsValue (pad4 n) = n ∧ ∀ b ∈ pad4 n, isDigit b = true)

/-- R14: `binary64 d` is the binary64 number nearest to `val d`: no finite binary64 number is nearer, and of two equally
near ones it is the one with the even significand; its sign bit is the decimal's sign, a negated zero's too. Values of
at least `2^1024 - 2^970` have no nearest finite number and give the infinity of IEEE 754 (assumption 11). -/
def Obligations.Binary64IsNearest : Prop :=
  ∀ d : Dec,
    (binary64 d).getLsbD 63 = d.neg ∧
    (isFinite64 (binary64 d) = true ↔ |val d| < 2 ^ 1024 - 2 ^ 970) ∧
    (isFinite64 (binary64 d) = false → (binary64 d).extractLsb' 0 63 = 0x7FF0000000000000#63) ∧
    (isFinite64 (binary64 d) = true → ∀ y : BitVec 64, isFinite64 y = true →
      |val d - value64 (binary64 d)| ≤ |val d - value64 y| ∧
      (|val d - value64 (binary64 d)| = |val d - value64 y| → value64 y ≠ value64 (binary64 d) →
        (binary64 d).getLsbD 0 = false))

/-- R144, R186: a NaN tells an unset latch: no latched value is exported as a NaN, and what an unset one responds with
always is one, whatever the free values are. -/
def Obligations.NaNTellsAnUnsetLatch : Prop :=
  (∀ d, isNaN (binary64 d) = false) ∧ (∀ n, isNaN (nanDraw n) = true)

/-! ### The textual syntax and the opcode table's words -/

/-- R73: the expansions of the pseudo-commands; and R72: the line of a well-formed command is read as that command. -/
def Obligations.TextualSyntaxAndExpansions : Prop :=
  (∀ i : Instr, i.wf = true → parseLine (lineText i) = some (some (.command i))) ∧
  expand .readAll = [.rdVoltage, .rdCurrent, .rdResistance, .rdFrequency] ∧
  (∀ f, expand (.sample f) = Instr.ofFrame f :: expand .readAll) ∧
  (∀ text, expand (.decodes text) = [Instr.ofFrame text]) ∧
  (∀ f : Bytes, f.length ≤ 255 → encode (Instr.ofFrame f) = 0x01#8 :: BitVec.ofNat 8 f.length :: f)

/-- The model's choice (assumptions 7 and 15): an opcode-table word placed at the head of the stream is the command that
the next step performs. -/
def Obligations.TableWordRunsNext : Prop :=
  ∀ (s : State) (nbits w : Nat) (i : Instr), decodeTableWord nbits w = some i →
    step (s.withFetchWord nbits w) = exec i s
end

