-- ==== Sys2Proof/Laws/Decode.lean ====
section
/-! SUPPORT. Frames, their bytes and their instructions: what each reading and writing function does, said once. -/

namespace Sys2Proof.Machine

/-- Byte 0's fields come back from the byte they are put together into. -/
theorem extract_join0 (u : BitVec 5) (s : BitVec 3) :
    (joinByte0 u s).extractLsb' 0 3 = s ∧ (joinByte0 u s).extractLsb' 3 5 = u := by
  revert u s; decide
/-- Byte 6's fields come back from the byte they are put together into. -/
theorem extract_join6 (u : BitVec 4) (s : BitVec 4) :
    (joinByte6 u s).extractLsb' 0 4 = s ∧ (joinByte6 u s).extractLsb' 4 4 = u := by
  revert u s; decide
theorem join0_extract (b : Byte) : joinByte0 (b.extractLsb' 3 5) (b.extractLsb' 0 3) = b := by
  revert b; decide
theorem join6_extract (b : Byte) : joinByte6 (b.extractLsb' 4 4) (b.extractLsb' 0 4) = b := by
  revert b; decide

/-- No field of a frame is lost in its bytes. -/
theorem parseFrame_frameBytes (c : BitVec 4) (fr : Frame) : parseFrame (frameBytes c fr) = some (c, fr) := by
  obtain ⟨⟩ := fr
  simp [parseFrame, frameBytes, extract_join0, extract_join6]

theorem frameBytes_of_parse {f : Bytes} {c : BitVec 4} {fr : Frame} (h : parseFrame f = some (c, fr)) : frameBytes c fr = f := by
  unfold parseFrame at h
  split at h
  · cases h; simp [frameBytes, join0_extract, join6_extract]
  · cases h

/-- A frame has a valid layout exactly when it has 12 bytes. -/
theorem parseFrame_isSome (f : Bytes) : (parseFrame f).isSome = true ↔ 12 ≤ f.length := by
  unfold parseFrame
  split
  · simp
  · rename_i h
    simp
    by_contra hc
    push Not at hc
    rcases f with _|⟨a0,_|⟨a1,_|⟨a2,_|⟨a3,_|⟨a4,_|⟨a5,_|⟨a6,_|⟨a7,_|⟨a8,_|⟨a9,_|⟨a10,_|⟨a11,f⟩⟩⟩⟩⟩⟩⟩⟩⟩⟩⟩⟩ <;> simp at hc
    exact h _ _ _ _ _ _ _ _ _ _ _ _ _ rfl

theorem parseFrame_none (f : Bytes) : parseFrame f = none ↔ f.length < 12 := by
  have := parseFrame_isSome f
  cases h : parseFrame f <;> simp_all

theorem frameOf_ofCode (c : BitVec 4) (fr : Frame) : frameOf (Instr.ofCode c fr) = some (c, fr) := by
  revert c
  suffices ∀ n : Fin 16, frameOf (Instr.ofCode ⟨n⟩ fr) = some (⟨n⟩, fr) from fun c => this c.toFin
  intro n
  fin_cases n <;> rfl

/-- A well-formed DECODE of a frame of valid layout is the frame function of its code. -/
theorem encode_of_frameOf {i : Instr} {c : BitVec 4} {fr : Frame} (h : frameOf i = some (c, fr)) :
    i.wf = true → encode i = encodeDecode (frameBytes c fr) ∧ fr.trail.length ≤ 243 ∧ i = Instr.ofCode c fr := by
  cases i <;> simp only [frameOf, Option.some.injEq, Prod.mk.injEq, reduceCtorEq] at h
  case decode f => 
    intro hw
    simp [Instr.wf] at hw
    have := (parseFrame_none f).2 hw
    simp [h] at this
  all_goals (obtain ⟨rfl, rfl⟩ := h; intro hw; simpa [Instr.wf, Frame.wf, encode, Instr.ofCode] using hw)

theorem frameBytes_length (c : BitVec 4) (fr : Frame) : (frameBytes c fr).length = fr.trail.length + 12 := by simp [frameBytes]

/-- The instruction of a frame operand short enough for the length byte is well-formed, and its bytes are the operand's. -/
theorem wf_ofFrame {f : Bytes} (h : f.length ≤ 255) :
    (Instr.ofFrame f).wf = true ∧ encode (Instr.ofFrame f) = encodeDecode f := by
  unfold Instr.ofFrame
  split
  · rename_i c fr hp
    have e := frameBytes_of_parse hp
    have hl : fr.trail.length ≤ 243 := by
      have := frameBytes_length c fr
      rw [e] at this; omega
    have hw : (Instr.ofCode c fr).wf = true := by
      suffices ∀ n : Fin 16, (Instr.ofCode ⟨n⟩ fr).wf = true from this c.toFin
      intro n
      fin_cases n <;> simpa [Instr.ofCode, Instr.wf, Frame.wf] using hl
    refine ⟨hw, ?_⟩
    rw [(encode_of_frameOf (frameOf_ofCode c fr) hw).1, e]
  · rename_i hp
    have := (parseFrame_none f).1 hp
    simp [Instr.wf, this, encode]

theorem decode_encodeDecode {f : Bytes} (h : f.length ≤ 255) (rest : Bytes) :
    decode (encodeDecode f ++ rest) = .command (.ofFrame f) rest := by
  have : (BitVec.ofNat 8 f.length).toNat = f.length := by simp; omega
  simp [encodeDecode, decode, decodeOperands, this]

/-- A nibble's digit has the nibble's value. -/
theorem hexDigit_hexChar (n : BitVec 4) : hexDigit (hexChar n) = some n.toNat := by
  revert n; decide

/-- A byte's two digits are read as the byte. -/
theorem hexByte_hexText (b : Byte) : hexByte (hexText b) = some b := by
  simp only [hexByte, hexText, hexDigit_hexChar, Option.bind_some, Option.map_some, BitVec.ofNat_toNat, BitVec.setWidth_eq]
  exact congrArg some (join6_extract b)

/-- The line of a DECODE is the line of its frame operand, whichever constructor it is. -/
theorem lineText_ofCode (c : BitVec 4) (fr : Frame) : lineText (Instr.ofCode c fr) = decodeText (frameBytes c fr) := by
  revert c
  suffices ∀ n : Fin 16, lineText (Instr.ofCode ⟨n⟩ fr) = decodeText (frameBytes ⟨n⟩ fr) from fun c => this c.toFin
  intro n
  fin_cases n <;> rfl

theorem lineText_decode (f : Bytes) : lineText (.decode f) = decodeText f := rfl

end Sys2Proof.Machine
end

