-- ==== Sys2Proof/Laws/Flags.lean ====
section
/-! SUPPORT. STATUS as a number, and the flag scan entry by entry. -/

namespace Sys2Proof.Machine

theorem toNat_append_eq {n m : Nat} (x : BitVec n) (y : BitVec m) : (x ++ y).toNat = x.toNat * 2 ^ m + y.toNat := by
  rw [BitVec.toNat_append, ← Nat.shiftLeft_add_eq_or_of_lt y.isLt, Nat.shiftLeft_eq]

/-- STATUS is its fields at their weights (R26). -/
theorem packStatus_toNat (a : Bool) (sub : BitVec 3) (c : BitVec 4) (tb : Bool) (tg : BitVec 3) (n : Bool) (e : BitVec 2)
    (d : Bool) :
    (packStatus a sub c tb tg n e d).toNat =
      d.toNat + 2 * e.toNat + 8 * n.toNat + 16 * tg.toNat + 128 * tb.toNat + 256 * c.toNat + 4096 * sub.toNat +
        32768 * a.toNat := by
  simp only [packStatus, toNat_append_eq, BitVec.toNat_ofBool]
  omega

section flagScan
variable (fr : Frame) (i : Nat) (fb : FlagBit) (ft : List FlagBit)

@[simp] theorem flagScanFrom_nil : flagScanFrom fr i [] = ⟨0#32, false, []⟩ := rfl

theorem flagScanFrom_cons_fires (h : fires fr fb = true) :
    flagScanFrom fr i (fb :: ft) =
      { hits := (flagScanFrom fr (i + 1) ft).hits ||| (1#32 <<< i)
        neg := if isSign fb then !(flagScanFrom fr (i + 1) ft).neg else (flagScanFrom fr (i + 1) ft).neg
        tags := if isSign fb then (flagScanFrom fr (i + 1) ft).tags else fb.tag :: (flagScanFrom fr (i + 1) ft).tags } := by
  simp only [flagScanFrom, h, if_true]

theorem flagScanFrom_cons_quiet (h : fires fr fb = false) :
    flagScanFrom fr i (fb :: ft) = flagScanFrom fr (i + 1) ft := by
  simp only [flagScanFrom, h, Bool.false_eq_true, if_false]

end flagScan

/-- The scan reads a frame through `fires` alone. -/
theorem flagScanFrom_congr {fr gr : Frame} {ft : List FlagBit} (h : ∀ fb ∈ ft, fires fr fb = fires gr fb) (i : Nat) :
    flagScanFrom fr i ft = flagScanFrom gr i ft := by
  induction ft generalizing i with
  | nil => rfl
  | cons fb ft ih =>
    simp only [flagScanFrom, h fb List.mem_cons_self, ih (fun g hg => h g (List.mem_cons_of_mem fb hg))]

end Sys2Proof.Machine
end

