-- ==== Sys2Proof/Laws/State.lean ====
section
/-! SUPPORT. What each update of the state changes and what it leaves alone, one lemma for each field. -/

namespace Sys2Proof.Machine

section setLatch
variable (s : State) (q : Quantity) (v : Option Dec)

@[simp] theorem State.setLatch_readable : (s.setLatch q v).readable = s.readable := by cases q <;> rfl
@[simp] theorem State.setLatch_status : (s.setLatch q v).status = s.status := by cases q <;> rfl
@[simp] theorem State.setLatch_flags : (s.setLatch q v).flags = s.flags := by cases q <;> rfl
@[simp] theorem State.setLatch_params : (s.setLatch q v).params = s.params := by cases q <;> rfl
@[simp] theorem State.setLatch_input : (s.setLatch q v).input = s.input := by cases q <;> rfl
@[simp] theorem State.setLatch_sent : (s.setLatch q v).sent = s.sent := by cases q <;> rfl
@[simp] theorem State.setLatch_nanDraws : (s.setLatch q v).nanDraws = s.nanDraws := by cases q <;> rfl

@[simp] theorem State.latch_setLatch_self : (s.setLatch q v).latch q = v := by cases q <;> rfl

theorem State.latch_setLatch_of_ne (r : Quantity) (h : r ≠ q) : (s.setLatch q v).latch r = s.latch r := by
  cases q <;> cases r <;> first | rfl | exact absurd rfl h

end setLatch

section clearLatches
variable (s : State)

@[simp] theorem State.latch_clearLatches (q : Quantity) : s.clearLatches.latch q = none := by cases q <;> rfl
@[simp] theorem State.clearLatches_latV : s.clearLatches.latV = none := rfl
@[simp] theorem State.clearLatches_latI : s.clearLatches.latI = none := rfl
@[simp] theorem State.clearLatches_latR : s.clearLatches.latR = none := rfl
@[simp] theorem State.clearLatches_latF : s.clearLatches.latF = none := rfl
@[simp] theorem State.clearLatches_readable : s.clearLatches.readable = s.readable := rfl
@[simp] theorem State.clearLatches_status : s.clearLatches.status = s.status := rfl
@[simp] theorem State.clearLatches_flags : s.clearLatches.flags = s.flags := rfl
@[simp] theorem State.clearLatches_params : s.clearLatches.params = s.params := rfl
@[simp] theorem State.clearLatches_input : s.clearLatches.input = s.input := rfl
@[simp] theorem State.clearLatches_sent : s.clearLatches.sent = s.sent := rfl
@[simp] theorem State.clearLatches_nanDraws : s.clearLatches.nanDraws = s.nanDraws := rfl

end clearLatches

section respond
variable (s : State) (bs : Bytes)

@[simp] theorem State.latch_respond (q : Quantity) : (s.respond bs).latch q = s.latch q := by cases q <;> rfl
@[simp] theorem State.respond_latV : (s.respond bs).latV = s.latV := rfl
@[simp] theorem State.respond_latI : (s.respond bs).latI = s.latI := rfl
@[simp] theorem State.respond_latR : (s.respond bs).latR = s.latR := rfl
@[simp] theorem State.respond_latF : (s.respond bs).latF = s.latF := rfl
@[simp] theorem State.respond_readable : (s.respond bs).readable = s.readable := rfl
@[simp] theorem State.respond_status : (s.respond bs).status = s.status := rfl
@[simp] theorem State.respond_flags : (s.respond bs).flags = s.flags := rfl
@[simp] theorem State.respond_params : (s.respond bs).params = s.params := rfl
@[simp] theorem State.respond_input : (s.respond bs).input = s.input := rfl
@[simp] theorem State.respond_sent : (s.respond bs).sent = s.sent ++ bs := rfl
@[simp] theorem State.respond_nanDraws : (s.respond bs).nanDraws = s.nanDraws := rfl

end respond

section setRegisters
variable (s : State) (rd : Bytes) (fl : BitVec 32) (st : BitVec 16)

@[simp] theorem State.latch_setRegisters (q : Quantity) : (s.setRegisters rd fl st).latch q = s.latch q := by
  cases q <;> rfl
@[simp] theorem State.setRegisters_latV : (s.setRegisters rd fl st).latV = s.latV := rfl
@[simp] theorem State.setRegisters_latI : (s.setRegisters rd fl st).latI = s.latI := rfl
@[simp] theorem State.setRegisters_latR : (s.setRegisters rd fl st).latR = s.latR := rfl
@[simp] theorem State.setRegisters_latF : (s.setRegisters rd fl st).latF = s.latF := rfl
@[simp] theorem State.setRegisters_readable : (s.setRegisters rd fl st).readable = rd := rfl
@[simp] theorem State.setRegisters_status : (s.setRegisters rd fl st).status = st := rfl
@[simp] theorem State.setRegisters_flags : (s.setRegisters rd fl st).flags = fl := rfl
@[simp] theorem State.setRegisters_params : (s.setRegisters rd fl st).params = s.params := rfl
@[simp] theorem State.setRegisters_input : (s.setRegisters rd fl st).input = s.input := rfl
@[simp] theorem State.setRegisters_sent : (s.setRegisters rd fl st).sent = s.sent := rfl
@[simp] theorem State.setRegisters_nanDraws : (s.setRegisters rd fl st).nanDraws = s.nanDraws := rfl

end setRegisters

section countDraw
variable (s : State)

@[simp] theorem State.latch_countDraw (q : Quantity) : s.countDraw.latch q = s.latch q := by cases q <;> rfl
@[simp] theorem State.countDraw_latV : s.countDraw.latV = s.latV := rfl
@[simp] theorem State.countDraw_latI : s.countDraw.latI = s.latI := rfl
@[simp] theorem State.countDraw_latR : s.countDraw.latR = s.latR := rfl
@[simp] theorem State.countDraw_latF : s.countDraw.latF = s.latF := rfl
@[simp] theorem State.countDraw_readable : s.countDraw.readable = s.readable := rfl
@[simp] theorem State.countDraw_status : s.countDraw.status = s.status := rfl
@[simp] theorem State.countDraw_flags : s.countDraw.flags = s.flags := rfl
@[simp] theorem State.countDraw_params : s.countDraw.params = s.params := rfl
@[simp] theorem State.countDraw_input : s.countDraw.input = s.input := rfl
@[simp] theorem State.countDraw_sent : s.countDraw.sent = s.sent := rfl
@[simp] theorem State.countDraw_nanDraws : s.countDraw.nanDraws = s.nanDraws + 1 := rfl

end countDraw

section setInput
variable (s : State) (bs : Bytes)

@[simp] theorem State.latch_setInput (q : Quantity) : State.latch { s with input := bs } q = s.latch q := by
  cases q <;> rfl

end setInput

end Sys2Proof.Machine
end

