-- ==== Sys2Proof/Laws/Ops.lean ====
section
/-! SUPPORT. What each shared operation can do, said once; later proofs cite these and do not unfold the operations. -/

namespace Sys2Proof.Machine

theorem whenAdmitted_next {s t : State} {k : Host.Outcome State Fault Refusal} (h : whenAdmitted s k = .next t) :
    cfgWf s.params.cfg = true ∧ k = .next t := by
  unfold whenAdmitted at h
  split at h
  · exact ⟨‹_›, h⟩
  · cases h

theorem whenAdmitted_of_wf {s : State} (k : Host.Outcome State Fault Refusal) (h : cfgWf s.params.cfg = true) :
    whenAdmitted s k = k := if_pos h

theorem whenAdmitted_of_not_wf {s : State} (k : Host.Outcome State Fault Refusal) (h : cfgWf s.params.cfg = false) :
    whenAdmitted s k = .refused .cfgNotAdmitted := if_neg (by simp [h])

/-- A DECODE of a frame of valid layout that goes on either raised an error or committed its reading. -/
theorem performFrame_next {c : BitVec 4} {fr : Frame} {s t : State} (h : performFrame c fr s = .next t) :
    cfgWf s.params.cfg = true ∧ ∃ mt, s.params.cfg.mt[c.toNat]? = some mt ∧
      ((∃ e, reading s.params mt fr = .error e ∧ t = raiseError e s.clearLatches) ∨
       (∃ rd, reading s.params mt fr = .ok rd ∧ t = commitReading c fr.sub rd s.clearLatches)) := by
  obtain ⟨hwf, h⟩ := whenAdmitted_next h
  refine ⟨hwf, ?_⟩
  split at h
  · cases h
  · rename_i mt hmt
    refine ⟨mt, hmt, ?_⟩
    split at h <;> cases h
    · exact .inl ⟨_, ‹_›, rfl⟩
    · exact .inr ⟨_, ‹_›, rfl⟩

theorem performShort_next {s t : State} (h : performShort s = .next t) :
    cfgWf s.params.cfg = true ∧ t = raiseError .length s.clearLatches := by
  obtain ⟨hwf, h⟩ := whenAdmitted_next h
  cases h
  exact ⟨hwf, rfl⟩

/-- A latch read that goes on sends 8 bytes, and draws a NaN exactly when the latch is unset. -/
theorem readLatch_next {q : Quantity} {s t : State} (h : readLatch q s = .next t) :
    cfgWf s.params.cfg = true ∧
      ((∃ d, s.latch q = some d ∧ t = s.respond (leBytes 8 (binary64 d))) ∨
       (s.latch q = none ∧ t = (s.respond (leBytes 8 (nanDraw s.nanDraws))).countDraw)) := by
  obtain ⟨hwf, h⟩ := whenAdmitted_next h
  refine ⟨hwf, ?_⟩
  split at h <;> cases h
  · exact .inl ⟨_, ‹_›, rfl⟩
  · exact .inr ⟨‹_›, rfl⟩

theorem readRegister_next {bs : Bytes} {s t : State} (h : readRegister bs s = .next t) :
    cfgWf s.params.cfg = true ∧ t = s.respond bs := by
  obtain ⟨hwf, h⟩ := whenAdmitted_next h
  cases h
  exact ⟨hwf, rfl⟩

theorem execReset_next {s t : State} (h : execReset s = .next t) :
    cfgWf s.params.cfg = true ∧ t = s.clearLatches.setRegisters [] 0#32 0#16 := by
  obtain ⟨hwf, h⟩ := whenAdmitted_next h
  cases h
  exact ⟨hwf, rfl⟩

/-- Every frame function is `performFrame` at its code, and so is a `decode` of a frame of valid layout. -/
theorem exec_of_frameOf {i : Instr} {c : BitVec 4} {fr : Frame} (h : frameOf i = some (c, fr)) (s : State) :
    exec i s = performFrame c fr s := by
  cases i <;> simp only [frameOf, Option.some.injEq, Prod.mk.injEq, reduceCtorEq] at h
  case decode f => simp only [exec, execDecode, h]
  all_goals obtain ⟨rfl, rfl⟩ := h; rfl

theorem isDecode_of_frameOf {i : Instr} {c : BitVec 4} {fr : Frame} (h : frameOf i = some (c, fr)) :
    isDecode i = true := by
  cases i <;> simp_all [frameOf, isDecode]

/-- All an instruction can do when it answers a next state. -/
theorem exec_next {i : Instr} {s t : State} (h : exec i s = .next t) :
    cfgWf s.params.cfg = true ∧
      ((isDecode i = true ∧ ∃ e, t = raiseError e s.clearLatches) ∨
       (∃ c fr mt rd, frameOf i = some (c, fr) ∧ s.params.cfg.mt[c.toNat]? = some mt ∧
          reading s.params mt fr = .ok rd ∧ t = commitReading c fr.sub rd s.clearLatches) ∨
       (isDecode i = false ∧ ∃ bs, t = s.respond bs) ∨
       (isDecode i = false ∧ t = (s.respond (leBytes 8 (nanDraw s.nanDraws))).countDraw) ∨
       (i = .reset ∧ t = s.clearLatches.setRegisters [] 0#32 0#16)) := by
  cases hf : frameOf i with
  | some p =>
    obtain ⟨c, fr⟩ := p
    rw [exec_of_frameOf hf] at h
    obtain ⟨hwf, mt, hmt, ⟨e, -, ht⟩ | ⟨rd, hrd, ht⟩⟩ := performFrame_next h
    · exact ⟨hwf, .inl ⟨isDecode_of_frameOf hf, e, ht⟩⟩
    · exact ⟨hwf, .inr (.inl ⟨c, fr, mt, rd, rfl, hmt, hrd, ht⟩)⟩
  | none =>
    cases i with
    | decode f =>
      simp only [frameOf] at hf
      simp only [exec, execDecode, hf] at h
      obtain ⟨hwf, ht⟩ := performShort_next h
      exact ⟨hwf, .inl ⟨rfl, _, ht⟩⟩
    | rdVoltage =>
      obtain ⟨hwf, ⟨d, -, ht⟩ | ⟨-, ht⟩⟩ := readLatch_next h
      · exact ⟨hwf, .inr (.inr (.inl ⟨rfl, _, ht⟩))⟩
      · exact ⟨hwf, .inr (.inr (.inr (.inl ⟨rfl, ht⟩)))⟩
    | rdCurrent =>
      obtain ⟨hwf, ⟨d, -, ht⟩ | ⟨-, ht⟩⟩ := readLatch_next h
      · exact ⟨hwf, .inr (.inr (.inl ⟨rfl, _, ht⟩))⟩
      · exact ⟨hwf, .inr (.inr (.inr (.inl ⟨rfl, ht⟩)))⟩
    | rdResistance =>
      obtain ⟨hwf, ⟨d, -, ht⟩ | ⟨-, ht⟩⟩ := readLatch_next h
      · exact ⟨hwf, .inr (.inr (.inl ⟨rfl, _, ht⟩))⟩
      · exact ⟨hwf, .inr (.inr (.inr (.inl ⟨rfl, ht⟩)))⟩
    | rdFrequency =>
      obtain ⟨hwf, ⟨d, -, ht⟩ | ⟨-, ht⟩⟩ := readLatch_next h
      · exact ⟨hwf, .inr (.inr (.inl ⟨rfl, _, ht⟩))⟩
      · exact ⟨hwf, .inr (.inr (.inr (.inl ⟨rfl, ht⟩)))⟩
    | rdReadable => exact (readRegister_next h).imp id fun ht => .inr (.inr (.inl ⟨rfl, _, ht⟩))
    | rdStatus => exact (readRegister_next h).imp id fun ht => .inr (.inr (.inl ⟨rfl, _, ht⟩))
    | rdFlags => exact (readRegister_next h).imp id fun ht => .inr (.inr (.inl ⟨rfl, _, ht⟩))
    | reset => exact (execReset_next h).imp id fun ht => .inr (.inr (.inr (.inr ⟨rfl, ht⟩)))
    | _ => simp [frameOf] at hf

/-- The SI value goes to one latch or to none; nothing else changes. -/
theorem commitLatch_latch (label : Bytes) (raw : Dec) (s : State) (q : Quantity) :
    (commitLatch label raw s).latch q =
      match unitClass label with
      | none => s.latch q
      | some (r, uexp) => if q = r then some (scale raw uexp) else s.latch q := by
  unfold commitLatch
  rcases unitClass label with - | ⟨r, uexp⟩
  · rfl
  · by_cases hq : q = r
    · subst hq; simp
    · simp [hq, State.latch_setLatch_of_ne _ _ _ _ hq]

@[simp] theorem commitLatch_params (label : Bytes) (raw : Dec) (s : State) :
    (commitLatch label raw s).params = s.params := by unfold commitLatch; split <;> simp
@[simp] theorem commitLatch_input (label : Bytes) (raw : Dec) (s : State) :
    (commitLatch label raw s).input = s.input := by unfold commitLatch; split <;> simp
@[simp] theorem commitLatch_sent (label : Bytes) (raw : Dec) (s : State) :
    (commitLatch label raw s).sent = s.sent := by unfold commitLatch; split <;> simp
@[simp] theorem commitLatch_nanDraws (label : Bytes) (raw : Dec) (s : State) :
    (commitLatch label raw s).nanDraws = s.nanDraws := by unfold commitLatch; split <;> simp

/-- Two states with the same fields are the same state, the latches read by name. -/
theorem State.ext_latch {s t : State} (hl : ∀ q, s.latch q = t.latch q) (h1 : s.readable = t.readable)
    (h2 : s.status = t.status) (h3 : s.flags = t.flags) (h4 : s.params = t.params) (h5 : s.input = t.input)
    (h6 : s.sent = t.sent) (h7 : s.nanDraws = t.nanDraws) : s = t := by
  obtain ⟨⟩ := s
  obtain ⟨⟩ := t
  have a := hl .voltage
  have b := hl .current
  have c := hl .resistance
  have d := hl .frequency
  simp only [State.latch] at a b c d
  simp_all

/-- The error commit on cleared latches is the whole failed DECODE of R165. -/
theorem raiseError_clearLatches (e : DecodeError) (s : State) :
    raiseError e s.clearLatches = failedDecode (errorCode e) s := rfl

/-- `raw` field by field. -/
theorem rawOf_eq (m : Dec) (k : Int) (neg : Bool) : rawOf m k neg = ⟨xor m.neg neg, m.coeff, m.exp + k⟩ := by
  cases neg <;> simp [rawOf, negate, scale]

/-- The latches after a successful DECODE. -/
theorem commitReading_latch (c : BitVec 4) (sub : BitVec 3) (rd : Reading) (s : State) (q : Quantity) :
    (commitReading c sub rd s.clearLatches).latch q =
      (unitClass rd.look.label).bind (fun p => if p.1 = q then some (scale rd.raw p.2) else none) := by
  simp only [commitReading, State.latch_respond, State.latch_setRegisters, commitLatch_latch]
  rcases unitClass rd.look.label with - | ⟨r, k⟩
  · simp
  · cases q <;> cases r <;> simp

/-- An admitted DECODE of a frame of valid layout: its reading is committed or its error raised. -/
theorem exec_frame {i : Instr} {c : BitVec 4} {fr : Frame} {s : State} {mt : MeasType}
    (hf : frameOf i = some (c, fr)) (hw : cfgWf s.params.cfg = true) (hm : s.params.cfg.mt[c.toNat]? = some mt) :
    exec i s =
      match reading s.params mt fr with
      | .error e => .next (raiseError e s.clearLatches)
      | .ok rd => .next (commitReading c fr.sub rd s.clearLatches) := by
  rw [exec_of_frameOf hf, performFrame, whenAdmitted_of_wf _ hw]
  cases h : reading s.params mt fr <;> simp [hm, h]

end Sys2Proof.Machine
end

