-- ==== Sys2Proof/Laws/PerInstr.lean ====
section
/-! SUPPORT. Facts about every instruction as syntax, one lemma for each constructor (the case split is the host's). -/

namespace Sys2Proof.Laws.EncodingLength

open Sys2Proof Sys2Proof.Machine

/-- A well-formed command is at least its command byte and at most a DECODE of 255 frame bytes (30_encoding.md R63), and it
starts with one of the nine command bytes of R64. -/
def Statement (i : Instr) : Prop :=
  i.wf = true → 1 ≤ (encode i).length ∧ (encode i).length ≤ 257 ∧ ∃ c ∈ commandBytes, (encode i).head? = some c

/-- The bytes of a DECODE with a frame operand that fits its length byte. -/
theorem of_operand {f : Bytes} (h : f.length ≤ 255) :
    1 ≤ (encodeDecode f).length ∧ (encodeDecode f).length ≤ 257 ∧ ∃ c ∈ commandBytes, (encodeDecode f).head? = some c := by
  refine ⟨by simp [encodeDecode], by simp [encodeDecode]; omega, 0x01#8, by decide, rfl⟩

/-- The frame of a well-formed frame function fits the length byte. -/
theorem of_frame (c : BitVec 4) {fr : Frame} (h : fr.wf = true) :
    1 ≤ (encodeDecode (frameBytes c fr)).length ∧ (encodeDecode (frameBytes c fr)).length ≤ 257 ∧
      ∃ b ∈ commandBytes, (encodeDecode (frameBytes c fr)).head? = some b := by
  apply of_operand
  have := frameBytes_length c fr
  simp [Frame.wf] at h
  omega

theorem decode (f : Bytes) : Statement (.decode f) := by
  intro h
  simp [Instr.wf] at h
  exact of_operand (by omega)
theorem rdVoltage : Statement .rdVoltage := fun _ => by decide
theorem rdCurrent : Statement .rdCurrent := fun _ => by decide
theorem rdResistance : Statement .rdResistance := fun _ => by decide
theorem rdFrequency : Statement .rdFrequency := fun _ => by decide
theorem rdReadable : Statement .rdReadable := fun _ => by decide
theorem rdStatus : Statement .rdStatus := fun _ => by decide
theorem rdFlags : Statement .rdFlags := fun _ => by decide
theorem reset : Statement .reset := fun _ => by decide
theorem frameMcode0 (fr : Frame) : Statement (.frameMcode0 fr) := fun h => of_frame 0x0#4 h
theorem frameMcode1 (fr : Frame) : Statement (.frameMcode1 fr) := fun h => of_frame 0x1#4 h
theorem frameMcode2 (fr : Frame) : Statement (.frameMcode2 fr) := fun h => of_frame 0x2#4 h
theorem frameMcode3 (fr : Frame) : Statement (.frameMcode3 fr) := fun h => of_frame 0x3#4 h
theorem frameMcode4 (fr : Frame) : Statement (.frameMcode4 fr) := fun h => of_frame 0x4#4 h
theorem frameMcode5 (fr : Frame) : Statement (.frameMcode5 fr) := fun h => of_frame 0x5#4 h
theorem frameMcode6 (fr : Frame) : Statement (.frameMcode6 fr) := fun h => of_frame 0x6#4 h
theorem frameMcode7 (fr : Frame) : Statement (.frameMcode7 fr) := fun h => of_frame 0x7#4 h
theorem frameMcode8 (fr : Frame) : Statement (.frameMcode8 fr) := fun h => of_frame 0x8#4 h
theorem frameMcode9 (fr : Frame) : Statement (.frameMcode9 fr) := fun h => of_frame 0x9#4 h
theorem frameMcodeA (fr : Frame) : Statement (.frameMcodeA fr) := fun h => of_frame 0xA#4 h
theorem frameMcodeB (fr : Frame) : Statement (.frameMcodeB fr) := fun h => of_frame 0xB#4 h
theorem frameMcodeC (fr : Frame) : Statement (.frameMcodeC fr) := fun h => of_frame 0xC#4 h
theorem frameMcodeD (fr : Frame) : Statement (.frameMcodeD fr) := fun h => of_frame 0xD#4 h
theorem frameMcodeE (fr : Frame) : Statement (.frameMcodeE fr) := fun h => of_frame 0xE#4 h
theorem frameMcodeF (fr : Frame) : Statement (.frameMcodeF fr) := fun h => of_frame 0xF#4 h

end Sys2Proof.Laws.EncodingLength
end

