-- ==== Sys2Proof/Tests/Slice0.lean ====
section
/-! SUPPORT. Tests: words and results written out from the spec (95_test_vectors.md V<n> unless another rule is named), and
a witness for the hypotheses of each statement in Certificates/Slice0/Obligations.lean. -/

namespace Sys2Proof.Tests

open Sys2Proof Sys2Proof.Machine

/-! ### Helpers -/

/-- The next state, if there is one. -/
def nextOf (o : Host.Outcome State Fault Refusal) : Option State :=
  match o with
  | .next t => some t
  | .fault _ => none
  | .refused _ => none

/-- The refusal, if there is one. -/
def refusalOf (o : Host.Outcome State Fault Refusal) : Option Refusal :=
  match o with
  | .next _ => none
  | .fault _ => none
  | .refused r => some r

theorem eq_next_of {o : Host.Outcome State Fault Refusal} {t : State} (h : nextOf o = some t) : o = .next t := by
  cases o <;> simp_all [nextOf]

theorem eq_refused_of {o : Host.Outcome State Fault Refusal} {r : Refusal} (h : refusalOf o = some r) : o = .refused r := by
  cases o <;> simp_all [refusalOf]

/-- One step from reset with these bytes sent by the host. -/
def run1 (bs : Bytes) : Option State := nextOf (step { State.reset with input := bs })

/-- READABLE and STATUS after one step from reset. -/
def shown (bs : Bytes) : Option (Bytes × BitVec 16) := (run1 bs).map (fun t => (t.readable, t.status))

/-- Bits of the four latches as the reads export them, after one step from reset. -/
def exported (bs : Bytes) : Option (List (Option Bytes)) :=
  (run1 bs).map (fun t => [t.latV, t.latI, t.latR, t.latF].map (fun l => l.map (fun d => leBytes 8 (binary64 d))))

/-- The response bytes of one instruction. -/
def response (i : Instr) (s : State) : Option Bytes := (nextOf (exec i s)).map State.sent

/-- A DECODE command whose frame has the byte 6 given, every other byte written out. -/
def wordB6 (b6 : Byte) : Bytes :=
  [0x01#8, 0x0C#8, 0x35#8, 0x31#8, 0x32#8, 0x33#8, 0x34#8, 0x2E#8, b6, 0x37#8, 0x38#8, 0x39#8, 0x3A#8, 0x3B#8]

/-- The frame of `wordB6`, field by field (30_encoding.md R60): 0x35 is sub-range 5 under the ignored bits 00110. -/
def frameB6 (u6 : BitVec 4) : Frame :=
  ⟨5#3, 0b00110#5, 0x31#8, 0x32#8, 0x33#8, 0x34#8, 0x2E#8, u6, 0x37#8, 0x38#8, 0x39#8, 0x3A#8, 0x3B#8, []⟩

/-- The frame `30 w1 w2 w3 w4 w5 3x 30 30 30 30 30` with the window and sub-range given, no flag set. -/
def plainFrame (sub : BitVec 3) (w1 w2 w3 w4 w5 : Byte) : Frame :=
  ⟨sub, 0b00110#5, w1, w2, w3, w4, w5, 3#4, 0x30#8, 0x30#8, 0x30#8, 0x30#8, 0x30#8, []⟩

/-- The window "12345". -/
def frame12345 (sub : BitVec 3) : Frame := plainFrame sub 0x31#8 0x32#8 0x33#8 0x34#8 0x35#8

/-- The sixteen frame functions on one frame. -/
def frameFunctions (fr : Frame) : List (BitVec 4 × Instr) :=
  [(0#4, .frameMcode0 fr), (1#4, .frameMcode1 fr), (2#4, .frameMcode2 fr), (3#4, .frameMcode3 fr),
   (4#4, .frameMcode4 fr), (5#4, .frameMcode5 fr), (6#4, .frameMcode6 fr), (7#4, .frameMcode7 fr)] ++
  [(8#4, .frameMcode8 fr), (9#4, .frameMcode9 fr), (10#4, .frameMcodeA fr), (11#4, .frameMcodeB fr),
   (12#4, .frameMcodeC fr), (13#4, .frameMcodeD fr), (14#4, .frameMcodeE fr), (15#4, .frameMcodeF fr)]

/-! ### Well-formedness: an ill-formed term for each check, and the boundary that passes -/

theorem test_wf_decode_length : (Instr.decode (List.replicate 12 0x30#8)).wf = false ∧
    (Instr.decode (List.replicate 11 0x30#8)).wf = true := by decide
/-- A frame function is as well-formed as its frame. -/
theorem wf_frameFunctions (fr : Frame) (p : BitVec 4 × Instr) (h : p ∈ frameFunctions fr) : p.2.wf = fr.wf := by
  simp [frameFunctions] at h
  rcases h with rfl | rfl | rfl | rfl | rfl | rfl | rfl | rfl | rfl | rfl | rfl | rfl | rfl | rfl | rfl | rfl <;> rfl
theorem wf_trail (n : Nat) : Frame.wf { frame12345 0#3 with trail := List.replicate n 0#8 } = decide (n ≤ 243) := by
  simp [Frame.wf]
/-- 244 trailing bytes make 256 frame bytes, one more than the length byte can say; 243 are the most it can. -/
theorem test_wf_trail : ∀ p ∈ frameFunctions { frame12345 0#3 with trail := List.replicate 244 0#8 }, p.2.wf = false :=
  fun p hp => (wf_frameFunctions _ p hp).trans (wf_trail 244)
theorem test_wf_trail_ends : ∀ p ∈ frameFunctions { frame12345 0#3 with trail := List.replicate 243 0#8 }, p.2.wf = true :=
  fun p hp => (wf_frameFunctions _ p hp).trans (wf_trail 243)
/-- `wf_mt_count` (40_tables.md R86). -/
theorem test_wf_mt_count : cfgWf { refCfg with mt := refCfg.mt.drop 1 } = false := by decide
/-- `wf_rt_len`. -/
theorem test_wf_rt_len :
    cfgWf { refCfg with mt := refTabled "x" (refEntry "" "V" 0 :: refTableHz) :: refCfg.mt.drop 1 } = false := by decide
/-- `wf_flag_offset`, below and above. -/
theorem test_wf_flag_offset : cfgWf { refCfg with ft := [⟨6, 0x01#8, []⟩] } = false ∧
    cfgWf { refCfg with ft := [⟨12, 0x01#8, []⟩] } = false ∧
    cfgWf { refCfg with ft := [⟨7, 0x01#8, []⟩, ⟨11, 0x80#8, []⟩] } = true := by decide
/-- `wf_flag_mask`: no bit, two bits. -/
theorem test_wf_flag_mask : cfgWf { refCfg with ft := [⟨7, 0x00#8, []⟩] } = false ∧
    cfgWf { refCfg with ft := [⟨7, 0x03#8, []⟩] } = false := by decide
/-- `wf_flag_count`. -/
theorem test_wf_flag_count : cfgWf { refCfg with ft := List.replicate 33 ⟨7, 0x01#8, []⟩ } = false ∧
    cfgWf { refCfg with ft := List.replicate 32 ⟨7, 0x01#8, []⟩ } = true := by decide
/-- `wf_readable_bound`: with no flag and a one-byte unit the bound is 14 + m, so 65521 is the largest exponent. -/
theorem test_wf_readable_bound :
    cfgWf ⟨refTabled "x" [refEntry "" "V" 65522] :: refCfg.mt.drop 1, []⟩ = false ∧
    cfgWf ⟨refTabled "x" [refEntry "" "V" 65521] :: refCfg.mt.drop 1, []⟩ = true := by decide

/-! ### Decoding (30_encoding.md R60 to R64, R67, R71) -/

/-- V80: L = 11. -/
theorem test_decode_decode : decode [0x01#8, 0x0B#8, 0x30#8, 0x30#8, 0x31#8, 0x30#8, 0x30#8, 0x30#8, 0x3B#8, 0x34#8, 0x30#8, 0x30#8, 0x30#8]
    = .command (.decode [0x30#8, 0x30#8, 0x31#8, 0x30#8, 0x30#8, 0x30#8, 0x3B#8, 0x34#8, 0x30#8, 0x30#8, 0x30#8]) [] := by
  decide
theorem test_decode_rdVoltage : decode [0x10#8, 0x05#8] = .command .rdVoltage [0x05#8] := by decide
theorem test_decode_rdCurrent : decode [0x11#8, 0x05#8] = .command .rdCurrent [0x05#8] := by decide
theorem test_decode_rdResistance : decode [0x12#8, 0x05#8] = .command .rdResistance [0x05#8] := by decide
theorem test_decode_rdFrequency : decode [0x13#8, 0x05#8] = .command .rdFrequency [0x05#8] := by decide
theorem test_decode_rdReadable : decode [0x20#8, 0x05#8] = .command .rdReadable [0x05#8] := by decide
theorem test_decode_rdStatus : decode [0x21#8, 0x05#8] = .command .rdStatus [0x05#8] := by decide
theorem test_decode_rdFlags : decode [0x22#8, 0x05#8] = .command .rdFlags [0x05#8] := by decide
theorem test_decode_reset : decode [0xFF#8, 0x05#8] = .command .reset [0x05#8] := by decide
theorem test_decode_frameMcode0 : decode (wordB6 0x30#8) = .command (.frameMcode0 (frameB6 0x3#4)) [] := by decide
theorem test_decode_frameMcode1 : decode (wordB6 0xB1#8) = .command (.frameMcode1 (frameB6 0xB#4)) [] := by decide
theorem test_decode_frameMcode2 : decode (wordB6 0x72#8) = .command (.frameMcode2 (frameB6 0x7#4)) [] := by decide
theorem test_decode_frameMcode3 : decode (wordB6 0x03#8) = .command (.frameMcode3 (frameB6 0x0#4)) [] := by decide
theorem test_decode_frameMcode4 : decode (wordB6 0xF4#8) = .command (.frameMcode4 (frameB6 0xF#4)) [] := by decide
theorem test_decode_frameMcode5 : decode (wordB6 0x15#8) = .command (.frameMcode5 (frameB6 0x1#4)) [] := by decide
theorem test_decode_frameMcode6 : decode (wordB6 0x46#8) = .command (.frameMcode6 (frameB6 0x4#4)) [] := by decide
theorem test_decode_frameMcode7 : decode (wordB6 0x97#8) = .command (.frameMcode7 (frameB6 0x9#4)) [] := by decide
theorem test_decode_frameMcode8 : decode (wordB6 0xA8#8) = .command (.frameMcode8 (frameB6 0xA#4)) [] := by decide
theorem test_decode_frameMcode9 : decode (wordB6 0x29#8) = .command (.frameMcode9 (frameB6 0x2#4)) [] := by decide
theorem test_decode_frameMcodeA : decode (wordB6 0x5A#8) = .command (.frameMcodeA (frameB6 0x5#4)) [] := by decide
theorem test_decode_frameMcodeB : decode (wordB6 0xCB#8) = .command (.frameMcodeB (frameB6 0xC#4)) [] := by decide
theorem test_decode_frameMcodeC : decode (wordB6 0x8C#8) = .command (.frameMcodeC (frameB6 0x8#4)) [] := by decide
theorem test_decode_frameMcodeD : decode (wordB6 0xDD#8) = .command (.frameMcodeD (frameB6 0xD#4)) [] := by decide
theorem test_decode_frameMcodeE : decode (wordB6 0xEE#8) = .command (.frameMcodeE (frameB6 0xE#4)) [] := by decide
theorem test_decode_frameMcodeF : decode (wordB6 0x6F#8) = .command (.frameMcodeF (frameB6 0x6#4)) [] := by decide
/-- 30_encoding.md R70, V71: the bytes from offset 12 on are the frame's trailing bytes. -/
theorem test_decode_trailing : decode [0x01#8, 0x0E#8, 0xB8#8, 0x30#8, 0x31#8, 0x30#8, 0x30#8, 0x30#8, 0xFB#8, 0xF4#8, 0x30#8,
      0x30#8, 0x30#8, 0x30#8, 0x0D#8, 0x0A#8, 0x21#8]
    = .command (.frameMcodeB ⟨0#3, 0b10111#5, 0x30#8, 0x31#8, 0x30#8, 0x30#8, 0x30#8, 0xF#4, 0xF4#8, 0x30#8, 0x30#8, 0x30#8,
        0x30#8, [0x0D#8, 0x0A#8]⟩) [0x21#8] := by decide
/-- R67: the ends of the four reserved ranges. -/
theorem test_decode_reserved : ∀ c ∈ [0x00#8, 0x02#8, 0x0F#8, 0x14#8, 0x1F#8, 0x23#8, 0xFE#8],
    decode [c, 0x10#8] = .reserved c := by decide
theorem test_decode_incomplete : decode [] = .incomplete ∧ decode [0x01#8] = .incomplete ∧
    decode [0x01#8, 0x02#8, 0x30#8] = .incomplete := by decide
theorem test_encode_decode : encode (.frameMcodeF (frameB6 0xF#4)) = wordB6 0xFF#8 ∧ encode (.decode []) = [0x01#8, 0x00#8] := by
  decide

/-! ### Opcode-table words -/

/-- The command rows at 8 bits. -/
theorem test_tableWord_commands : ([0x01, 0x10, 0x11, 0x12, 0x13, 0x20, 0x21, 0x22, 0xFF].map (decodeTableWord 8)) =
    [some (.decode []), some .rdVoltage, some .rdCurrent, some .rdResistance, some .rdFrequency, some .rdReadable,
     some .rdStatus, some .rdFlags, some .reset] := by decide
/-- The frame rows but FRAME_MCODE_1, whose word 0x01 is DECODE's (assumption 7): the constructor has the row's code. -/
theorem test_tableWord_frames : ∀ c ∈ [0, 2, 3, 4, 5, 6, 7, 8, 9, 10, 11, 12, 13, 14, 15],
    ((decodeTableWord 8 c).bind frameOf).map Prod.fst = some (BitVec.ofNat 4 c) := by decide
/-- A FRAME_MCODE_1 word with an ignored bit set. -/
theorem test_tableWord_frame1 : ((decodeTableWord 8 0x31).bind frameOf).map Prod.fst = some 1#4 := by decide
theorem test_withFetchWord_runs :
    (nextOf (step (State.reset.withFetchWord 8 0x21))).map State.sent = some [0x00#8, 0x00#8] := by decide

/-! ### DECODE and the frame functions: READABLE and STATUS -/

theorem test_decode_V80 : shown
    [0x01#8, 0x0B#8, 0x30#8, 0x30#8, 0x31#8, 0x30#8, 0x30#8, 0x30#8, 0x3B#8, 0x34#8, 0x30#8, 0x30#8, 0x30#8]
    = some ([], 0x0003#16) := by decide
theorem test_frameMcode0_V4 : shown
    [0x01#8, 0x0C#8, 0x30#8, 0x31#8, 0x2E#8, 0x32#8, 0x30#8, 0x30#8, 0x30#8, 0x34#8, 0x30#8, 0x30#8, 0x3A#8, 0x30#8]
    = some (ascii "-0.0012 A DC,AUTO", 0x80A9#16) := by decide
theorem test_frameMcode0_V43 : shown
    [0x01#8, 0x0C#8, 0x30#8, 0x30#8, 0x30#8, 0x2E#8, 0x30#8, 0x35#8, 0x30#8, 0x30#8, 0x30#8, 0x30#8, 0x30#8, 0x30#8]
    = some (ascii "0.0001 A", 0x00A1#16) := by decide
theorem test_frameMcode1_V31 : shown
    [0x01#8, 0x0C#8, 0x30#8, 0x30#8, 0x35#8, 0x30#8, 0x30#8, 0x30#8, 0x31#8, 0x30#8, 0x30#8, 0x30#8, 0x30#8, 0x30#8]
    = some (ascii "5000.0000 Diode", 0x0101#16) := by decide
theorem test_frameMcode1_V92 : shown
    [0x01#8, 0x0C#8, 0x30#8, 0x4F#8, 0x4C#8, 0x20#8, 0x20#8, 0x20#8, 0x31#8, 0x30#8, 0x30#8, 0x30#8, 0x30#8, 0x30#8]
    = some ([], 0x0005#16) := by decide
theorem test_frameMcode2_V5 : shown
    [0x01#8, 0x0C#8, 0x32#8, 0x31#8, 0x30#8, 0x30#8, 0x30#8, 0x30#8, 0x32#8, 0x30#8, 0x30#8, 0x30#8, 0x33#8, 0x30#8]
    = some (ascii "1.0000 kHz AUTO,Hz", 0xA2C1#16) := by decide
theorem test_frameMcode3_V7 : shown
    [0x01#8, 0x0C#8, 0x31#8, 0x31#8, 0x32#8, 0x33#8, 0x34#8, 0x35#8, 0x33#8, 0x30#8, 0x30#8, 0x30#8, 0x30#8, 0x30#8]
    = some (ascii "1.2345 kOhm", 0x13B1#16) := by decide
theorem test_frameMcode4_asV6 : shown
    [0x01#8, 0x0C#8, 0x30#8, 0x31#8, 0x32#8, 0x33#8, 0x34#8, 0x35#8, 0x34#8, 0x30#8, 0x30#8, 0x30#8, 0x30#8, 0x30#8]
    = some (ascii "12345.0000 ", 0x0401#16) := by decide
theorem test_frameMcode5_V32 : shown
    [0x01#8, 0x0C#8, 0x30#8, 0x30#8, 0x30#8, 0x31#8, 0x32#8, 0x33#8, 0x35#8, 0x30#8, 0x30#8, 0x30#8, 0x32#8, 0x30#8]
    = some (ascii "123.0000 Continuity AUTO", 0x8501#16) := by decide
theorem test_frameMcode6_V30 : shown
    [0x01#8, 0x0C#8, 0x32#8, 0x30#8, 0x31#8, 0x30#8, 0x30#8, 0x30#8, 0x36#8, 0x34#8, 0x30#8, 0x30#8, 0x30#8, 0x32#8]
    = some (ascii "-0.1000 uF HOLD", 0xA689#16) := by decide
theorem test_frameMcode7_V6 : shown
    [0x01#8, 0x0C#8, 0x30#8, 0x31#8, 0x32#8, 0x33#8, 0x34#8, 0x35#8, 0x37#8, 0x30#8, 0x30#8, 0x30#8, 0x30#8, 0x30#8]
    = some (ascii "12345.0000 ", 0x0701#16) := by decide
theorem test_frameMcode7_V33 : shown
    [0x01#8, 0x0C#8, 0x30#8, 0x31#8, 0x32#8, 0x33#8, 0x34#8, 0x35#8, 0x37#8, 0x30#8, 0x30#8, 0x30#8, 0x32#8, 0x30#8]
    = some (ascii "12345.0000  AUTO", 0x8701#16) := by decide
theorem test_frameMcode8_asV6 : shown
    [0x01#8, 0x0C#8, 0x30#8, 0x31#8, 0x32#8, 0x33#8, 0x34#8, 0x35#8, 0x38#8, 0x30#8, 0x30#8, 0x30#8, 0x30#8, 0x30#8]
    = some (ascii "12345.0000 ", 0x0801#16) := by decide
theorem test_frameMcode9_asV6 : shown
    [0x01#8, 0x0C#8, 0x30#8, 0x31#8, 0x32#8, 0x33#8, 0x34#8, 0x35#8, 0x39#8, 0x30#8, 0x30#8, 0x30#8, 0x30#8, 0x30#8]
    = some (ascii "12345.0000 ", 0x0901#16) := by decide
theorem test_frameMcodeA_asV6 : shown
    [0x01#8, 0x0C#8, 0x30#8, 0x31#8, 0x32#8, 0x33#8, 0x34#8, 0x35#8, 0x3A#8, 0x30#8, 0x30#8, 0x30#8, 0x30#8, 0x30#8]
    = some (ascii "12345.0000 ", 0x0A01#16) := by decide
theorem test_frameMcodeB_V60 : shown
    [0x01#8, 0x0C#8, 0x30#8, 0x30#8, 0x31#8, 0x30#8, 0x30#8, 0x30#8, 0x3B#8, 0x37#8, 0x3E#8, 0x3F#8, 0x3F#8, 0x3F#8]
    = some (ascii "-0.1000 V BATT,OL,MAX,MIN,REL,DC,AC,AUTO,Hz,HOLD", 0x8B99#16) := by decide
theorem test_frameMcodeC_asV6 : shown
    [0x01#8, 0x0C#8, 0x30#8, 0x31#8, 0x32#8, 0x33#8, 0x34#8, 0x35#8, 0x3C#8, 0x30#8, 0x30#8, 0x30#8, 0x30#8, 0x30#8]
    = some (ascii "12345.0000 ", 0x0C01#16) := by decide
theorem test_frameMcodeD_V22 : shown
    [0x01#8, 0x0C#8, 0x31#8, 0x31#8, 0x32#8, 0x33#8, 0x34#8, 0x35#8, 0x3D#8, 0x30#8, 0x30#8, 0x30#8, 0x30#8, 0x30#8]
    = some (ascii "1234.5000 uA", 0x1DA1#16) := by decide
theorem test_frameMcodeE_asV6 : shown
    [0x01#8, 0x0C#8, 0x30#8, 0x31#8, 0x32#8, 0x33#8, 0x34#8, 0x35#8, 0x3E#8, 0x30#8, 0x30#8, 0x30#8, 0x30#8, 0x30#8]
    = some (ascii "12345.0000 ", 0x0E01#16) := by decide
theorem test_frameMcodeF_V93 : shown
    [0x01#8, 0x0C#8, 0x35#8, 0x31#8, 0x32#8, 0x61#8, 0x34#8, 0x35#8, 0x3F#8, 0x30#8, 0x30#8, 0x30#8, 0x30#8, 0x30#8]
    = some ([], 0x0003#16) := by decide

/-! ### The latches, FLAGS, the response; reads and RESET -/

/-- V1: the response, STATUS and FLAGS. -/
theorem test_response_V1 : (run1 [0x01#8, 0x0C#8, 0x30#8, 0x30#8, 0x31#8, 0x30#8, 0x30#8, 0x30#8, 0x3B#8, 0x34#8, 0x30#8, 0x30#8, 0x30#8, 0x30#8]).map
    (fun t => (t.sent, t.status, t.flags)) = some ([0x00#8, 0x09#8, 0x00#8, 0x2D#8, 0x30#8, 0x2E#8, 0x31#8, 0x30#8, 0x30#8, 0x30#8, 0x20#8, 0x56#8], 0x0B99#16, 1#32) := by decide
/-- V2. -/
theorem test_latch_V2 : exported [0x01#8, 0x0C#8, 0x30#8, 0x32#8, 0x32#8, 0x30#8, 0x30#8, 0x30#8, 0x3F#8, 0x30#8, 0x30#8, 0x30#8, 0x30#8, 0x30#8]
    = some [none, some [0xBA#8, 0x49#8, 0x0C#8, 0x02#8, 0x2B#8, 0x87#8, 0x96#8, 0x3F#8], none, none] := by decide
/-- V26 (MOhm), V28 (MHz). -/
theorem test_latch_V26 : exported [0x01#8, 0x0C#8, 0x36#8, 0x31#8, 0x32#8, 0x33#8, 0x34#8, 0x35#8, 0x33#8, 0x30#8, 0x30#8, 0x30#8, 0x30#8, 0x30#8]
    = some [none, none, some [0x00#8, 0x00#8, 0x00#8, 0x40#8, 0xCA#8, 0x6E#8, 0x9D#8, 0x41#8], none] := by decide
theorem test_latch_V28 : exported [0x01#8, 0x0C#8, 0x35#8, 0x31#8, 0x32#8, 0x33#8, 0x34#8, 0x35#8, 0x32#8, 0x30#8, 0x30#8, 0x30#8, 0x30#8, 0x30#8]
    = some [none, none, none, some [0x00#8, 0x00#8, 0x00#8, 0x00#8, 0x44#8, 0xD6#8, 0x32#8, 0x41#8]] := by decide
/-- V29, V30: capacitance sets no latch (R127); FLAGS 0x401. -/
theorem test_latch_V30 : (run1 [0x01#8, 0x0C#8, 0x32#8, 0x30#8, 0x31#8, 0x30#8, 0x30#8, 0x30#8, 0x36#8, 0x34#8, 0x30#8, 0x30#8, 0x30#8, 0x32#8]).map
    (fun t => ([t.latV, t.latI, t.latR, t.latF], t.flags)) = some ([none, none, none, none], 0x401#32) := by decide
/-- V80: the response of an InvalidFrame. -/
theorem test_response_V80 : (run1 [0x01#8, 0x0B#8, 0x30#8, 0x30#8, 0x31#8, 0x30#8, 0x30#8, 0x30#8, 0x3B#8, 0x34#8, 0x30#8, 0x30#8, 0x30#8]).map State.sent
    = some [0x01#8, 0x00#8, 0x00#8] := by decide
/-- V86, by MAG_POLICY (R109). -/
theorem test_magnitude_V86 : magnitude .error [0x31#8, 0x32#8, 0x61#8, 0x34#8, 0x35#8] = none ∧
    magnitude .zero [0x31#8, 0x32#8, 0x61#8, 0x34#8, 0x35#8] = some ⟨false, 0, 0⟩ := by decide
/-- V87, V88, V91: not numeric. -/
theorem test_magDecode_V87 : ∀ w ∈ [[0x31#8, 0x2E#8, 0x32#8, 0x2E#8, 0x33#8], [0x20#8, 0x31#8, 0x32#8, 0x33#8, 0x34#8], [0x2E#8, 0x2E#8, 0x2E#8, 0x2E#8, 0x2E#8]],
    magDecode w = none := by decide
/-- V47 ".1234", V48 "1234.". -/
theorem test_magDecode_points : magDecode [0x2E#8, 0x31#8, 0x32#8, 0x33#8, 0x34#8] = some ⟨false, 1234, -4⟩ ∧
    magDecode [0x31#8, 0x32#8, 0x33#8, 0x34#8, 0x2E#8] = some ⟨false, 1234, 0⟩ := by decide
/-- V40 and V46, by NEG_ZERO (R120). -/
theorem test_fmt4_V40 : fmt4 .minus ⟨true, 0, -4⟩ = ascii "-0.0000" ∧ fmt4 .plain ⟨true, 0, -4⟩ = ascii "0.0000" ∧
    fmt4 .plain ⟨true, 4, -5⟩ = ascii "-0.0000" := by decide
/-- V100. -/
theorem test_rdVoltage_V100 : response .rdVoltage { State.reset with latV := some ⟨true, 1000, -4⟩ }
    = some [0x9A#8, 0x99#8, 0x99#8, 0x99#8, 0x99#8, 0x99#8, 0xB9#8, 0xBF#8] := by decide
/-- V111: 8 bytes, and a NaN drawn. -/
theorem test_rdVoltage_V111 : (nextOf (exec .rdVoltage State.reset)).map (fun t => (t.sent.length, t.nanDraws)) = some (8, 1) := by
  decide
/-- V102. -/
theorem test_rdCurrent_V102 : response .rdCurrent { State.reset with latI := some ⟨false, 22000, -6⟩ }
    = some [0xBA#8, 0x49#8, 0x0C#8, 0x02#8, 0x2B#8, 0x87#8, 0x96#8, 0x3F#8] := by decide
/-- V103. -/
theorem test_rdResistance_V103 : response .rdResistance { State.reset with latR := some ⟨false, 12345, -1⟩ }
    = some [0x00#8, 0x00#8, 0x00#8, 0x00#8, 0x00#8, 0x4A#8, 0x93#8, 0x40#8] := by decide
/-- V104. -/
theorem test_rdFrequency_V104 : response .rdFrequency { State.reset with latF := some ⟨false, 10000, -1⟩ }
    = some [0x00#8, 0x00#8, 0x00#8, 0x00#8, 0x00#8, 0x40#8, 0x8F#8, 0x40#8] := by decide
/-- V105. -/
theorem test_rdReadable_V105 : response .rdReadable { State.reset with readable := ascii "12.3450 V" }
    = some [0x09#8, 0x00#8, 0x31#8, 0x32#8, 0x2E#8, 0x33#8, 0x34#8, 0x35#8, 0x30#8, 0x20#8, 0x56#8] := by decide
/-- V106. -/
theorem test_rdStatus_V106 : response .rdStatus { State.reset with status := 0x0B99#16 } = some [0x99#8, 0x0B#8] := by decide
/-- V107. -/
theorem test_rdFlags_V107 : response .rdFlags { State.reset with flags := 0x00000141#32 }
    = some [0x41#8, 0x01#8, 0x00#8, 0x00#8] := by decide
/-- V109. -/
theorem test_reset_V109 : nextOf (exec .reset { State.reset with
      latV := some ⟨true, 1000, -4⟩, readable := ascii "-0.1000 V", status := 0x0B99#16, flags := 1#32 }) = some State.reset := by
  decide
/-- V114. -/
theorem test_reserved_V114 : refusalOf (step { State.reset with input := [0x05#8] }) = some (.reservedCommand 0x05#8) := by decide
/-- 00_scope.md R14: ties go to the even significand (2^53 + 1, 2^53 + 3), the smallest subnormal, an infinity. -/
theorem test_binary64_corners : binary64 ⟨false, 9007199254740993, 0⟩ = 0x4340000000000000#64 ∧
    binary64 ⟨false, 9007199254740995, 0⟩ = 0x4340000000000002#64 ∧
    binary64 ⟨false, 5, -324⟩ = 0x0000000000000001#64 ∧ binary64 ⟨true, 1, 309⟩ = 0xFFF0000000000000#64 := by
  decide +kernel
/-- 30_encoding.md R72, R73, and the program P2 of 95_test_vectors.md. -/
theorem test_assemble_P2 : (assemble ["DECODE [31 31 32 33 34 35 33 30 30 30 30 30]   ; 01 0C".toList, "READALL".toList,
      "RD_STATUS".toList]).map streamBytes
    = some [0x01#8, 0x0C#8, 0x31#8, 0x31#8, 0x32#8, 0x33#8, 0x34#8, 0x35#8, 0x33#8, 0x30#8, 0x30#8, 0x30#8, 0x30#8, 0x30#8, 0x10#8, 0x11#8, 0x12#8, 0x13#8, 0x21#8] := by decide
theorem test_assemble_DECODES : (assemble ["DECODES \"0010;\" ; text".toList, "SAMPLE [ff]".toList]).map streamBytes
    = some [0x01#8, 0x05#8, 0x30#8, 0x30#8, 0x31#8, 0x30#8, 0x3B#8, 0x01#8, 0x01#8, 0xFF#8, 0x10#8, 0x11#8, 0x12#8, 0x13#8] := by decide

/-! ### Witnesses: for each statement, values that meet its hypotheses together -/

/-- The reference configuration is admitted, so the state after reset meets `cfgWf s.params.cfg = true`. -/
theorem wit_admitted : cfgWf State.reset.params.cfg = true := by decide

/-- A configuration that is not. -/
def badState : State := { State.reset with params := { defaultParams with cfg := ⟨[], []⟩ } }

/-- The state after a step that answers one, else the state itself. -/
def after (i : Instr) (s : State) : State := (nextOf (exec i s)).getD s

/-- V1's frame. -/
def v1 : Bytes := [0x30#8, 0x30#8, 0x31#8, 0x30#8, 0x30#8, 0x30#8, 0x3B#8, 0x34#8, 0x30#8, 0x30#8, 0x30#8, 0x30#8]

theorem wit_StepPerformsNextCommand :
    (∃ s i rest, decode (State.input s) = .command i rest) ∧
    (∃ (s : State) (i : Instr) (rest : Bytes), i.wf = true ∧ s.input = encode i ++ rest) :=
  ⟨⟨{ State.reset with input := [0x10#8, 0xFF#8] }, .rdVoltage, [0xFF#8], by decide⟩,
   ⟨{ State.reset with input := [0x01#8, 0x00#8, 0x21#8] }, .decode [], [0x21#8], by decide, by decide⟩⟩
theorem wit_StepWaits :
    (∃ s : State, s.input = []) ∧ (∃ s : State, s.input = [0x01#8]) ∧
    (∃ s : State, ∃ l body, s.input = 0x01#8 :: l :: body ∧ body.length < l.toNat) :=
  ⟨⟨State.reset, rfl⟩, ⟨{ State.reset with input := [0x01#8] }, rfl⟩,
   ⟨{ State.reset with input := [0x01#8, 0x02#8, 0x30#8] }, 0x02#8, [0x30#8], rfl, by decide⟩⟩
/-- The two ends of each reserved range of R67. -/
theorem wit_ReservedByte : ∀ c ∈ [0x00#8, 0x02#8, 0x0F#8, 0x14#8, 0x1F#8, 0x23#8, 0xFE#8],
    ∃ (is : List Instr) (rest : Bytes) (s : State), (∀ i ∈ is, i.wf = true) ∧ cfgWf s.params.cfg = true ∧
      (c.toNat = 0 ∨ (0x02 ≤ c.toNat ∧ c.toNat ≤ 0x0F) ∨ (0x14 ≤ c.toNat ∧ c.toNat ≤ 0x1F) ∨
        (0x23 ≤ c.toNat ∧ c.toNat ≤ 0xFE)) ∧ s.input = streamBytes is ++ c :: rest := by
  intro c hc
  refine ⟨[.rdStatus, .reset], [0x10#8], { State.reset with input := [0x21#8, 0xFF#8, c, 0x10#8] }, by decide, wit_admitted, ?_, rfl⟩
  revert c; decide
theorem wit_StreamRuns : ∃ (is : List Instr) (rest : Bytes) (s : State), (∀ i ∈ is, i.wf = true) ∧
    s.input = streamBytes is ++ rest :=
  ⟨[.frameMcodeB (frameB6 0#4), .rdVoltage], [], { State.reset with input := wordB6 0x0B#8 ++ [0x10#8] }, by decide, by decide⟩
/-- A DECODE of 11 bytes, and every frame function with the longest trail. -/
theorem wit_DecodeInvertsEncode : (Instr.decode (List.replicate 11 0#8)).wf = true ∧
    ∀ p ∈ frameFunctions { frame12345 0#3 with trail := List.replicate 243 0#8 }, p.2.wf = true :=
  ⟨by decide, test_wf_trail_ends⟩
theorem wit_EncodeInvertsDecode : decode (wordB6 0x37#8) = .command (.frameMcode7 (frameB6 3#4)) [] := by decide
/-- 12 bytes have a layout, 11 do not. -/
theorem wit_FrameFields : (parseFrame v1).isSome = true ∧ (parseFrame (v1.take 11)).isSome = false := by decide
/-- V1 and V70: 12 bytes each, equal in every bit the device reads. -/
theorem wit_IgnoredBits :
    let f := v1
    let g := [0xB8#8, 0x30#8, 0x31#8, 0x30#8, 0x30#8, 0x30#8, 0xFB#8, 0xF4#8, 0x30#8, 0x30#8, 0x30#8, 0x30#8]
    12 ≤ f.length ∧ 12 ≤ g.length ∧ f[0]?.map (· &&& 0x07#8) = g[0]?.map (· &&& 0x07#8) ∧
    f[6]?.map (· &&& 0x0F#8) = g[6]?.map (· &&& 0x0F#8) ∧ (f.drop 1).take 5 = (g.drop 1).take 5 ∧
    (∀ fb ∈ State.reset.params.cfg.ft, f[fb.off]?.map (· &&& fb.mask) = g[fb.off]?.map (· &&& fb.mask)) ∧ f ≠ g := by decide
theorem wit_ByteSix : ∃ c fr, parseFrame v1 = some (c, fr) ∧ c = 0xB#4 := ⟨_, _, rfl, rfl⟩
theorem wit_ShortFrame : ∃ f : Bytes, f.length < 12 ∧ f.length = 11 := ⟨List.replicate 11 0x30#8, by decide⟩
/-- Under the reference configuration: the nine codes without a table, at sub-range 7 (and so at any). -/
theorem wit_Tableless : ∀ p ∈ (frameFunctions (frame12345 7#3)).filter (fun p => decide (p.1 ∈ [1#4, 4#4, 5#4, 7#4, 8#4, 9#4, 10#4, 12#4, 14#4])),
    frameOf p.2 = some (p.1, frame12345 7#3) ∧ (∃ mt ∈ refCfg.mt, State.reset.params.cfg.mt[p.1.toNat]? = some mt ∧ mt.table = none) ∧
      magDecode (window (frame12345 7#3)) = some ⟨false, 12345, 0⟩ := by decide
/-- The seven codes with one, at its last entry. -/
theorem wit_Tabled : ∀ p ∈ [(0#4, 0#3, Instr.frameMcode0 (frame12345 0#3)), (2#4, 7#3, .frameMcode2 (frame12345 7#3)),
      (3#4, 6#3, .frameMcode3 (frame12345 6#3)), (6#4, 7#3, .frameMcode6 (frame12345 7#3)),
      (11#4, 4#3, .frameMcodeB (frame12345 4#3)), (13#4, 1#3, .frameMcodeD (frame12345 1#3)),
      (15#4, 1#3, .frameMcodeF (frame12345 1#3))],
    frameOf p.2.2 = some (p.1, frame12345 p.2.1) ∧
    (∃ mt ∈ refCfg.mt, State.reset.params.cfg.mt[p.1.toNat]? = some mt ∧
      (mt.table.bind (fun rt => rt[(frame12345 p.2.1).sub.toNat]?)).isSome = true ∧
      mt.table.map List.length = some (p.2.1.toNat + 1)) ∧
    magDecode (window (frame12345 p.2.1)) = some ⟨false, 12345, 0⟩ := by decide
/-- A configuration whose sixteen types all have one table, and one whose sixteen types have none: each frame function
meets the hypotheses of both result statements. -/
theorem wit_everyFrameFunction :
    let tabled : Cfg := ⟨List.replicate 16 (refTabled "x" refTableV), refFt⟩
    let tableless : Cfg := ⟨List.replicate 16 (refPlain "x"), refFt⟩
    cfgWf tabled = true ∧ cfgWf tableless = true ∧
    ∀ p ∈ frameFunctions (frame12345 4#3), frameOf p.2 = some (p.1, frame12345 4#3) ∧
      tabled.mt[p.1.toNat]? = some (refTabled "x" refTableV) ∧ refTableV[(frame12345 4#3).sub.toNat]? = some (refEntry "220.00" "mV" (-2)) ∧
      tableless.mt[p.1.toNat]? = some (refPlain "x") := by decide
/-- V83: sub-range 5 of a table of 5; and a table of 8. -/
theorem wit_Subrange :
    (frameOf (.frameMcodeB (frame12345 5#3)) = some (0xB#4, frame12345 5#3) ∧
      State.reset.params.cfg.mt[(0xB#4).toNat]? = some (refTabled "Voltage" refTableV) ∧ refTableV.length ≤ (5#3).toNat) ∧
    (refTabled "Frequency" refTableHz).table = some refTableHz ∧ refTableHz.length = 8 ∧ (refPlain "").table = none := by decide
/-- V86, at the last sub-range of its table. -/
theorem wit_NonNumeric :
    let fr := plainFrame 4#3 0x31#8 0x32#8 0x61#8 0x34#8 0x35#8
    frameOf (.frameMcodeB fr) = some (0xB#4, fr) ∧ State.reset.params.cfg.mt[(0xB#4).toNat]? = some (refTabled "Voltage" refTableV) ∧
    (∀ rt ∈ (refTabled "Voltage" refTableV).table, fr.sub.toNat < rt.length) ∧ magDecode (window fr) = none ∧
    State.reset.params.magPolicy = .error ∧ ({ defaultParams with magPolicy := .zero } : Params).magPolicy = .zero := by decide
/-- V93, V86 and V1 meet the three cases of the second clause, 11 bytes the first. -/
theorem wit_FirstError :
    (v1.take 11).length < 12 ∧
    (∀ f ∈ [[0x35#8, 0x31#8, 0x32#8, 0x61#8, 0x34#8, 0x35#8, 0x3B#8, 0x30#8, 0x30#8, 0x30#8, 0x30#8, 0x30#8], [0x30#8, 0x31#8, 0x32#8, 0x61#8, 0x34#8, 0x35#8, 0x3B#8, 0x30#8, 0x30#8, 0x30#8, 0x30#8, 0x30#8], v1],
      (parseFrame f).map Prod.fst = some 0xB#4) ∧
    State.reset.params.cfg.mt[(0xB#4).toNat]? = some (refTabled "Voltage" refTableV) := by decide
theorem wit_FailedDecode : ∃ (i : Instr) (s t : State), isDecode i = true ∧ exec i s = .next t ∧ statusErr t.status ≠ 0#2 :=
  ⟨.decode [], State.reset, after (.decode []) State.reset, by decide, eq_next_of (by decide), by decide⟩
/-- Two states that differ in every register. -/
theorem wit_DecodeReadsNoRegister : ∃ (i : Instr) (s s' t t' : State), isDecode i = true ∧ s.params = s'.params ∧
    exec i s = .next t ∧ exec i s' = .next t' ∧ s.latV ≠ s'.latV ∧ s.status ≠ s'.status :=
  let s' : State := { State.reset with latV := some ⟨false, 1, 0⟩, readable := ascii "x", status := 0xFFFF#16, flags := 5#32 }
  ⟨.decode v1, State.reset, s', after (.decode v1) State.reset, after (.decode v1) s', by decide, by decide,
   eq_next_of (by decide), eq_next_of (by decide), by decide, by decide⟩
/-- A DECODE that sets a latch, one that fails. -/
theorem wit_DecodeSetsLatch :
    (∃ (i : Instr) (s t : State), isDecode i = true ∧ exec i s = .next t ∧ (t.latch .voltage).isSome = true) ∧
    (∃ (i : Instr) (s t : State), isDecode i = true ∧ exec i s = .next t ∧ statusErr t.status ≠ 0#2) :=
  ⟨⟨.decode v1, State.reset, after (.decode v1) State.reset, by decide, eq_next_of (by decide), by decide⟩, wit_FailedDecode⟩
/-- A set and an unset latch of each quantity. -/
theorem wit_LatchReads : cfgWf State.reset.params.cfg = true ∧
    (∀ q ∈ [Quantity.voltage, .current, .resistance, .frequency],
      (State.reset.setLatch q (some ⟨true, 1000, -4⟩)).latch q = some ⟨true, 1000, -4⟩ ∧ State.reset.latch q = none) := by decide
/-- The longest READABLE. -/
theorem wit_ReadReadable : ∃ s : State, cfgWf s.params.cfg = true ∧ s.readable.length ≤ 65535 ∧ s.readable.length = 65535 :=
  ⟨{ State.reset with readable := List.replicate 65535 0x30#8 }, wit_admitted, Nat.le_of_eq List.length_replicate,
    List.length_replicate⟩
/-- After V2 the voltage latch is not the target. -/
theorem wit_UntargetedLatch : ∃ (i j : Instr) (q : Quantity) (s t : State),
    (j, q) ∈ [(Instr.rdVoltage, Quantity.voltage), (.rdCurrent, .current), (.rdResistance, .resistance),
      (.rdFrequency, .frequency)] ∧
    isDecode i = true ∧ exec i s = .next t ∧ statusTarget t.status ≠ targetCode (some q) :=
  let s : State := { State.reset with latV := some ⟨false, 1, 0⟩ }
  let i : Instr := .frameMcodeF (plainFrame 0#3 0x32#8 0x32#8 0x30#8 0x30#8 0x30#8)
  ⟨i, .rdVoltage, .voltage, s, after i s, by decide, by decide, eq_next_of (by decide), by decide⟩
theorem wit_OnlyDecodeAndReset : ∃ (i : Instr) (s t : State), exec i s = .next t ∧ isDecode i = false ∧ i ≠ .reset :=
  ⟨.rdStatus, State.reset, after .rdStatus State.reset, eq_next_of (by decide), by decide, by decide⟩
theorem wit_NoCommandWritesTheConfiguration : ∃ (i : Instr) (s t : State), exec i s = .next t ∧ isDecode i = true :=
  ⟨.decode v1, State.reset, after (.decode v1) State.reset, eq_next_of (by decide), by decide⟩
theorem wit_Unadmitted : cfgWf badState.params.cfg = false := by decide
theorem wit_StepRefuses :
    (∃ s r, step s = .refused r ∧ r = .cfgNotAdmitted) ∧ (∃ s r c, step s = .refused r ∧ r = .reservedCommand c) :=
  ⟨⟨{ badState with input := [0x10#8] }, _, eq_refused_of (r := .cfgNotAdmitted) (by decide), rfl⟩,
   ⟨{ State.reset with input := [0x02#8] }, _, 0x02#8, eq_refused_of (r := .reservedCommand 0x02#8) (by decide), rfl⟩⟩

/-- The registers after V1, a command pending. -/
def safeV1 : State :=
  { State.reset with
    latV := some ⟨true, 1000, -4⟩, readable := ascii "-0.1000 V", status := 0x0B99#16, flags := 1#32, input := [0x21#8] }

theorem safe_safeV1 : Safe safeV1 where
  legalStatus := by decide
  targetNamesTheLatch q := by cases q <;> decide
  latchSign q d h := by cases q <;> cases h; decide
  beforeDecode := by decide
  afterFailure := by decide
  flagsInTable k hk := by
    have : k ≠ 0 := by rintro rfl; exact absurd hk (by decide)
    rw [show safeV1.flags = 1#32 from rfl]
    simp [BitVec.getLsbD_one, this]
  anyflagAgrees := by
    refine ⟨fun h => absurd h (by decide), ?_⟩
    rintro ⟨k, fb, hk, hs, hb⟩
    rw [show safeV1.flags = 1#32 from rfl] at hb
    simp [BitVec.getLsbD_one] at hb
    subst hb
    cases hk
    exact absurd hs (by decide)

theorem wit_StepKeepsSafe : ∃ s t : State, Safe s ∧ step s = .next t :=
  ⟨safeV1, after .rdStatus { safeV1 with input := [] }, safe_safeV1, eq_next_of (by decide)⟩
theorem wit_ReadableStays : ∃ s t : State, s.readable.length ≤ 65535 ∧ step s = .next t ∧ t.readable ≠ s.readable :=
  ⟨{ State.reset with input := wordB6 0x31#8 }, after (.frameMcode1 (frameB6 3#4)) State.reset, by decide,
   eq_next_of (by decide), by decide⟩
/-- Windows at the edges: no point, a point first, a point last, two points, a byte that is neither. -/
theorem wit_Windows :
    (∀ w ∈ window (plainFrame 0#3 0x30#8 0x39#8 0x30#8 0x39#8 0x30#8), isDigit w = true) ∧
    (window (plainFrame 0#3 0x2E#8 0x31#8 0x32#8 0x33#8 0x34#8) = [] ++ 0x2E#8 :: [0x31#8, 0x32#8, 0x33#8, 0x34#8] ∧
      ∀ w ∈ ([] : Bytes) ++ [0x31#8, 0x32#8, 0x33#8, 0x34#8], isDigit w = true) ∧
    (window (plainFrame 0#3 0x31#8 0x32#8 0x33#8 0x34#8 0x2E#8) = [0x31#8, 0x32#8, 0x33#8, 0x34#8] ++ 0x2E#8 :: [] ∧
      ∀ w ∈ [0x31#8, 0x32#8, 0x33#8, 0x34#8] ++ ([] : Bytes), isDigit w = true) ∧
    magDecode (window (plainFrame 0#3 0x39#8 0x39#8 0x39#8 0x39#8 0x39#8)) = some ⟨false, 99999, 0⟩ ∧
    (magDecode (window (plainFrame 0#3 0x39#8 0x2E#8 0x2E#8 0x39#8 0x39#8))).isSome = false ∧
    (magDecode (window (plainFrame 0#3 0x39#8 0x2F#8 0x39#8 0x39#8 0x39#8))).isSome = false := by decide
/-- Offsets 7 and 11. -/
theorem wit_EntryFires : ∃ a b : FlagBit, 7 ≤ a.off ∧ a.off ≤ 11 ∧ a.off = 7 ∧ 7 ≤ b.off ∧ b.off ≤ 11 ∧ b.off = 11 :=
  ⟨⟨7, 0x04#8, ascii "-"⟩, ⟨11, 0x02#8, ascii "HOLD"⟩, by decide⟩
/-- A table of 32 entries whose last one fires. -/
theorem wit_Hits : (List.replicate 32 (⟨7, 0x04#8, []⟩ : FlagBit)).length ≤ 32 ∧
    (flagScan (List.replicate 32 ⟨7, 0x04#8, []⟩) (frameB6 3#4)).hits.getLsbD 31 = true := by decide
theorem wit_EqualDecimals : sameDec ⟨true, 10, -5⟩ ⟨true, 1, -4⟩ = true ∧ sameDec ⟨true, 0, 3⟩ ⟨true, 0, 0⟩ = true ∧
    sameDec ⟨true, 0, 0⟩ ⟨false, 0, 0⟩ = false := by decide
theorem wit_DecimalSpellings : (dec 0).head? = some 0x30#8 ∧ 9999 < 10000 := by decide
/-- A finite result and an infinite one. -/
theorem wit_Binary64 : isFinite64 (binary64 ⟨false, 1, -1⟩) = true ∧ isFinite64 (binary64 ⟨false, 1, 309⟩) = false ∧
    isFinite64 0x3FB9999999999999#64 = true := by decide +kernel
/-- The longest operand. -/
theorem wit_Textual : Instr.wf (.decode [0x0A#8]) = true ∧ (List.replicate 255 0#8).length ≤ 255 :=
  ⟨by decide, Nat.le_of_eq List.length_replicate⟩
theorem wit_TableWord : decodeTableWord 8 0x22 = some .rdFlags ∧ decodeTableWord 8 0x0F = some (.frameMcodeF
    ⟨0#3, 0#5, 0#8, 0#8, 0#8, 0#8, 0#8, 0#4, 0#8, 0#8, 0#8, 0#8, 0#8, []⟩) := by decide

end Sys2Proof.Tests
end

