-- ==== Sys2Proof/Proofs/Spelling.lean ====
section
/-! PROOF. Decimal spellings (00_scope.md R14): the two equations of `dec`, and what a spelling is by recursion on the
last digit. -/

namespace Sys2Proof.Machine

theorem digitByte_toNat {n : Nat} (h : n < 10) : (digitByte n).toNat = 0x30 + n := by
  rw [digitByte, BitVec.toNat_ofNat, Nat.mod_eq_of_lt (by omega)]

theorem digitVal_digitByte {n : Nat} (h : n < 10) : digitVal (digitByte n) = n := by
  rw [digitVal, digitByte_toNat h, Nat.add_sub_cancel_left]

theorem isDigit_digitByte {n : Nat} (h : n < 10) : isDigit (digitByte n) = true := by
  simp [isDigit, digitByte_toNat h]; omega

theorem digitByte_eq_zero_iff {n : Nat} (h : n < 10) : digitByte n = 0x30#8 ↔ n = 0 := by
  rw [← BitVec.toNat_inj, digitByte_toNat h]; simp

/-- The fuel does not matter once it covers the number's digits. -/
theorem decDigits_fuel_irrelevant {f g n : Nat} (hf : n < 10 ^ (f + 1)) (hg : n < 10 ^ (g + 1)) :
    decDigits f n = decDigits g n := by
  induction f generalizing g n with
  | zero =>
    have h : n < 10 := by simpa using hf
    cases g <;> simp [decDigits, h, Nat.mod_eq_of_lt h]
  | succ f ih =>
    cases g with
    | zero =>
      have h : n < 10 := by simpa using hg
      simp [decDigits, h, Nat.mod_eq_of_lt h]
    | succ g =>
      have hn : decDigits f (n / 10) = decDigits g (n / 10) := ih (by omega) (by omega)
      simp only [decDigits, hn]

theorem lt_ten_pow_log2_succ (n : Nat) : n < 10 ^ (n.log2 + 1) :=
  Nat.lt_of_lt_of_le Nat.lt_log2_self (Nat.pow_le_pow_left (by decide) _)

theorem dec_of_lt {n : Nat} (h : n < 10) : dec n = [digitByte n] := by
  have hf : dec n = decDigits 0 n := decDigits_fuel_irrelevant (lt_ten_pow_log2_succ n) (by simpa using h)
  rw [hf, decDigits, Nat.mod_eq_of_lt h]

theorem dec_of_ge {n : Nat} (h : 10 ≤ n) : dec n = dec (n / 10) ++ [digitByte (n % 10)] := by
  have hn := lt_ten_pow_log2_succ (n / 10)
  have hf : dec n = decDigits ((n / 10).log2 + 1) n :=
    decDigits_fuel_irrelevant (lt_ten_pow_log2_succ n) (by omega)
  rw [hf, decDigits, if_neg (Nat.not_lt.2 h), dec]

/-- Induction along a spelling: one digit, or a spelling and a last digit. -/
theorem dec_induction {motive : Nat → Prop} (digit : ∀ n, n < 10 → motive n)
    (append : ∀ n, 10 ≤ n → motive (n / 10) → motive n) (n : Nat) : motive n := by
  induction n using Nat.strong_induction_on with
  | _ n ih =>
    by_cases h : n < 10
    · exact digit n h
    · exact append n (by omega) (ih (n / 10) (by omega))

@[simp] theorem digitsValue_append_digit (bs : Bytes) (b : Byte) :
    digitsValue (bs ++ [b]) = 10 * digitsValue bs + digitVal b := by
  simp [digitsValue]

@[simp] theorem digitsValue_zeros_append (k : Nat) (bs : Bytes) :
    digitsValue (List.replicate k 0x30#8 ++ bs) = digitsValue bs := by
  induction k with
  | zero => rfl
  | succ k ih => exact ih

@[simp] theorem digitsValue_dec (n : Nat) : digitsValue (dec n) = n := by
  induction n using dec_induction with
  | digit n h => simp [dec_of_lt h, digitsValue, digitVal_digitByte h]
  | append n h ih =>
    rw [dec_of_ge h, digitsValue_append_digit, ih, digitVal_digitByte (by omega)]
    omega

theorem isDigit_of_mem_dec {n : Nat} : ∀ b ∈ dec n, isDigit b = true := by
  induction n using dec_induction with
  | digit n h => simp [dec_of_lt h, isDigit_digitByte h]
  | append n h ih =>
    simpa [dec_of_ge h, or_imp, forall_and, isDigit_digitByte (Nat.mod_lt n (by decide : 0 < 10))] using ih

theorem dec_ne_nil (n : Nat) : dec n ≠ [] := by
  induction n using dec_induction with
  | digit n h => simp [dec_of_lt h]
  | append n h _ => simp [dec_of_ge h]

/-- Only 0 itself is spelled with a leading zero. -/
theorem eq_zero_of_head_dec {n : Nat} (hz : (dec n).head? = some 0x30#8) : n = 0 := by
  induction n using dec_induction with
  | digit n h => simpa [dec_of_lt h, digitByte_eq_zero_iff h] using hz
  | append n h ih =>
    rw [dec_of_ge h, List.head?_append_of_ne_nil _ (dec_ne_nil _)] at hz
    have := ih hz
    omega

/-- A number below `10^(k+1)` is spelled with at most `k + 1` digits. -/
theorem dec_length_le {k n : Nat} (h : n < 10 ^ (k + 1)) : (dec n).length ≤ k + 1 := by
  induction n using dec_induction generalizing k with
  | digit n hn => simp [dec_of_lt hn]
  | append n hn ih =>
    cases k with
    | zero => omega
    | succ k => simpa [dec_of_ge hn] using ih (k := k) (by omega)

theorem pad4_length {n : Nat} (h : n < 10000) : (pad4 n).length = 4 := by
  have := dec_length_le (k := 3) h
  simp [pad4]; omega

@[simp] theorem digitsValue_pad4 (n : Nat) : digitsValue (pad4 n) = n := by simp [pad4]

theorem isDigit_of_mem_pad4 {n : Nat} : ∀ b ∈ pad4 n, isDigit b = true := by
  intro b hb
  rcases List.mem_append.1 hb with hz | hd
  · rw [List.eq_of_mem_replicate hz]; decide
  · exact isDigit_of_mem_dec b hd

/-- Settles O47: both equations of `dec` and the induction along them, `pad4` being `dec` behind zeros. -/
theorem decimalSpellings : Obligations.DecimalSpellings := by
  refine ⟨fun n => ⟨digitsValue_dec n, isDigit_of_mem_dec, dec_ne_nil n, fun hz => ?_⟩,
    fun n hn => ⟨pad4_length hn, digitsValue_pad4 n, isDigit_of_mem_pad4⟩⟩
  obtain rfl := eq_zero_of_head_dec hz
  exact ⟨rfl, rfl⟩

end Sys2Proof.Machine
end

