-- ==== Sys2Proof/Proofs/DecimalValue.lean ====
section
/-! PROOF. A decimal as sign and magnitude (00_scope.md R13): its test of equality and its formatter (41_decode.md R120)
depend on these two alone. -/

namespace Sys2Proof.Machine

theorem abs_val (d : Dec) : |val d| = d.coeff * (10 : ℚ) ^ d.exp := by
  have h : (0 : ℚ) ≤ d.coeff * (10 : ℚ) ^ d.exp := by positivity
  cases hn : d.neg <;> simp [val, hn, abs_of_nonneg h]

/-- The factor `(-1)^neg` of R13. -/
def signOf (neg : Bool) : ℚ := if neg then -1 else 1

@[simp] theorem signOf_true : signOf true = -1 := rfl
@[simp] theorem signOf_false : signOf false = 1 := rfl

theorem signOf_inj {s t : Bool} : signOf s = signOf t ↔ s = t := by
  cases s <;> cases t <;> norm_num

@[simp] theorem signOf_mul_signOf_mul (s : Bool) (x : ℚ) : signOf s * (signOf s * x) = x := by
  cases s <;> simp

/-- A sign moves through a distance. -/
theorem abs_signOf_mul_sub (s : Bool) (x y : ℚ) : |signOf s * x - y| = |x - signOf s * y| := by
  cases s
  · simp
  · rw [abs_sub_comm, signOf_true]; congr 1; ring

theorem val_eq_signOf_mul_abs (d : Dec) : val d = signOf d.neg * |val d| := by
  rw [abs_val, val, mul_assoc, signOf]

theorem abs_val_eq_zero_iff (d : Dec) : |val d| = 0 ↔ d.coeff = 0 := by
  have : (10 : ℚ) ^ d.exp ≠ 0 := by positivity
  simp [abs_val, this]

/-- The magnitude over a smaller exponent. -/
theorem abs_val_eq_coeffAt (d : Dec) {m : Int} (h : m ≤ d.exp) : |val d| = coeffAt d m * (10 : ℚ) ^ m := by
  have he : d.exp = ((d.exp - m).toNat : ℤ) + m := by omega
  rw [abs_val, coeffAt, he, zpow_add₀ (by norm_num), zpow_natCast, ← he]
  push_cast
  ring

theorem sameDec_iff (a b : Dec) : sameDec a b = true ↔ a.neg = b.neg ∧ |val a| = |val b| := by
  have h10 : (10 : ℚ) ^ min a.exp b.exp ≠ 0 := by positivity
  rw [abs_val_eq_coeffAt a (min_le_left a.exp b.exp), abs_val_eq_coeffAt b (min_le_right a.exp b.exp),
    mul_left_inj' h10, Nat.cast_inj]
  simp [sameDec]

/-- Two decimals of one nonzero value have one sign. -/
theorem neg_eq_of_val_eq {a b : Dec} (h : val a = val b) (h0 : val a ≠ 0) : a.neg = b.neg := by
  have hsign : signOf a.neg * |val a| = signOf b.neg * |val a| := by
    rw [← val_eq_signOf_mul_abs, h, ← val_eq_signOf_mul_abs]
  exact signOf_inj.1 (mul_right_cancel₀ (abs_ne_zero.2 h0) hsign)

/-- Settles O44: `sameDec` compares signs and magnitudes, and a nonzero value determines both. -/
theorem sameDecIsEqualityAsData : Obligations.SameDecIsEqualityAsData := by
  intro a b
  rw [sameDec_iff]
  constructor
  · rintro ⟨hneg, habs⟩
    exact ⟨by rw [val_eq_signOf_mul_abs a, val_eq_signOf_mul_abs b, hneg, habs], fun _ => hneg⟩
  · rintro ⟨hval, hzero⟩
    refine ⟨?_, by rw [hval]⟩
    by_cases h0 : val a = 0
    · exact hzero h0
    · exact neg_eq_of_val_eq hval h0

/-- Half-up rounding of a fraction of natural numbers: the quotient, and one more where the remainder is half or more. -/
theorem floor_div_add_half (n d : Nat) (hd : 0 < d) :
    ⌊(n / d + 1 / 2 : ℚ)⌋₊ = n / d + (if d ≤ 2 * (n % d) then 1 else 0) := by
  have hq : (n / d + 1 / 2 : ℚ) = ((2 * n + d : ℕ) : ℚ) / ((2 * d : ℕ) : ℚ) := by
    have : (d : ℚ) ≠ 0 := by positivity
    push_cast; field_simp
  have hn : 2 * n + d = 2 * d * (n / d) + (2 * (n % d) + d) := by
    conv_lhs => rw [← Nat.div_add_mod n d]
    ring
  have hr := Nat.mod_lt n hd
  rw [hq, Nat.floor_div_eq_div, hn, Nat.mul_add_div (by omega)]
  congr 1
  split
  · exact Nat.div_eq_of_lt_le (by omega) (by omega)
  · exact Nat.div_eq_of_lt (by omega)

/-- R120's `N` is the magnitude in units of `10^-4`, rounded half away from zero. -/
theorem fmt4Units_eq_floor (d : Dec) : fmt4Units d = ⌊|val d| * 10000 + 1 / 2⌋₊ := by
  have hscaled : |val d| * 10000 = d.coeff * (10 : ℚ) ^ (d.exp + 4) := by
    rw [abs_val, zpow_add₀ (by norm_num), mul_assoc]; norm_num
  simp only [fmt4Units]
  split
  · have he : d.exp + 4 = ((-(-4 - d.exp)).toNat : ℤ) := by omega
    have hint := floor_div_add_half (d.coeff * 10 ^ (-(-4 - d.exp)).toNat) 1 one_pos
    rw [hscaled, he, zpow_natCast]
    simpa [Nat.mod_one] using hint.symm
  · have he : d.exp + 4 = -((-4 - d.exp).toNat : ℤ) := by omega
    have hfrac := floor_div_add_half d.coeff (10 ^ (-4 - d.exp).toNat) (by positivity)
    rw [hscaled, he, zpow_neg, zpow_natCast, ← div_eq_mul_inv]
    simpa using hfrac.symm

/-- The formatter reads a decimal through its sign and magnitude. -/
theorem fmt4_congr {a b : Dec} (hneg : a.neg = b.neg) (habs : |val a| = |val b|) (p : NegZero) :
    fmt4 p a = fmt4 p b := by
  have hzero : a.coeff = 0 ↔ b.coeff = 0 := by rw [← abs_val_eq_zero_iff, ← abs_val_eq_zero_iff, habs]
  have hminus : fmt4Minus p a = fmt4Minus p b := by simp [fmt4Minus, hneg, hzero]
  rw [fmt4, fmt4, hminus, fmt4Units_eq_floor, fmt4Units_eq_floor, habs]

end Sys2Proof.Machine
end

