-- ==== Sys2Proof/Proofs/Rounding.lean ====
section
/-! PROOF. Rounding to nearest, ties to even (00_scope.md R14): a predicate on rationals that determines the rounded
number, and the proof that the model's integer rounding satisfies it. -/

namespace Sys2Proof.Machine

/-- `n` is `t` rounded to the nearest natural number, ties to even. -/
structure IsNearestEven (t : ℚ) (n : ℕ) : Prop where
  within_half : |t - n| ≤ 1 / 2
  even_of_tie : |t - n| = 1 / 2 → n % 2 = 0

/-- Every other integer is at least half a unit away. -/
theorem IsNearestEven.half_le_of_ne {t : ℚ} {n : ℕ} (h : IsNearestEven t n) {N : ℤ} (hN : N ≠ n) :
    1 / 2 ≤ |t - N| := by
  have hone : (1 : ℚ) ≤ |(n : ℚ) - N| := by
    have : (1 : ℤ) ≤ |(n : ℤ) - N| := Int.one_le_abs (sub_ne_zero.2 hN.symm)
    exact_mod_cast this
  have htri := abs_sub_le (n : ℚ) t N
  have hhalf := h.within_half
  rw [abs_sub_comm] at hhalf
  linarith

theorem IsNearestEven.le_dist {t : ℚ} {n : ℕ} (h : IsNearestEven t n) (N : ℤ) : |t - n| ≤ |t - N| := by
  by_cases hN : N = n
  · simp [hN]
  · exact h.within_half.trans (h.half_le_of_ne hN)

theorem IsNearestEven.even_of_eq_dist {t : ℚ} {n : ℕ} (h : IsNearestEven t n) {N : ℤ} (hN : N ≠ n)
    (he : |t - n| = |t - N|) : n % 2 = 0 :=
  h.even_of_tie (le_antisymm h.within_half (he ▸ h.half_le_of_ne hN))

theorem IsNearestEven.unique {t : ℚ} {m n : ℕ} (hm : IsNearestEven t m) (hn : IsNearestEven t n) : m = n := by
  by_contra hne
  have hmn : |t - m| = |t - n| := le_antisymm (hm.le_dist n) (hn.le_dist m)
  have hm2 := hm.even_of_eq_dist (N := n) (by omega) hmn
  have hn2 := hn.even_of_eq_dist (N := m) (by omega) hmn.symm
  -- the midpoint of two even numbers is an integer, and it is nearer than either
  obtain ⟨c, hc⟩ : ∃ c : ℤ, (m : ℤ) + n = 2 * c := ⟨((m : ℤ) + n) / 2, by omega⟩
  have hcQ : (m : ℚ) + n = 2 * c := by exact_mod_cast hc
  have ht : t = c := by
    rcases abs_eq_abs.1 hmn with h | h
    · exact absurd (by exact_mod_cast sub_right_injective h) hne
    · linarith
  have hc0 := hm.half_le_of_ne (N := c) (by omega)
  norm_num [ht] at hc0

theorem IsNearestEven.le_of_lt_natCast {t : ℚ} {n b : ℕ} (h : IsNearestEven t n) (hb : t < b) : n ≤ b := by
  have hlow := (abs_le.1 h.within_half).1
  have : (n : ℚ) < (b + 1 : ℕ) := by push_cast; linarith
  exact Nat.lt_add_one_iff.1 (by exact_mod_cast this)

theorem IsNearestEven.le_of_natCast_le {t : ℚ} {n b : ℕ} (h : IsNearestEven t n) (hb : b ≤ t) : b ≤ n := by
  have hhigh := (abs_le.1 h.within_half).2
  have : (b : ℚ) < (n + 1 : ℕ) := by push_cast; linarith
  exact Nat.lt_add_one_iff.1 (by exact_mod_cast this)

/-- The midpoint below an even number is a tie, and rounds up to it. -/
theorem IsNearestEven.lt_even_iff {t : ℚ} {n b : ℕ} (h : IsNearestEven t n) (hb : b % 2 = 0) :
    n < b ↔ t < b - 1 / 2 := by
  obtain ⟨hlow, hhigh⟩ := abs_le.1 h.within_half
  constructor
  · intro hn
    have hnQ : (n : ℚ) + 1 ≤ b := by exact_mod_cast hn
    by_contra! ht
    have hnb : (n : ℚ) + 1 = b := by linarith
    have htie : |t - n| = 1 / 2 := by rw [show t - n = 1 / 2 by linarith]; norm_num
    have hodd : n + 1 = b := by exact_mod_cast hnb
    have := h.even_of_tie htie
    omega
  · intro ht
    have : (n : ℚ) < b := by linarith
    exact_mod_cast this

theorem roundHalfEven_isNearestEven (n d : ℕ) (hd : 0 < d) : IsNearestEven ((n : ℚ) / d) (roundHalfEven n d) := by
  have hdQ : (0 : ℚ) < d := by exact_mod_cast hd
  have hsplit : (n : ℚ) / d = (n / d : ℕ) + (n % d : ℕ) / (d : ℚ) := by
    have hn : (n : ℚ) = d * (n / d : ℕ) + (n % d : ℕ) := by exact_mod_cast (Nat.div_add_mod n d).symm
    field_simp; linarith
  have hlt : ((n % d : ℕ) : ℚ) / d < 1 := by
    rw [div_lt_one hdQ]; exact_mod_cast Nat.mod_lt n hd
  have h0 : (0 : ℚ) ≤ ((n % d : ℕ) : ℚ) / d := by positivity
  have hhalf : 2 * (n % d) = d ↔ ((n % d : ℕ) : ℚ) / d = 1 / 2 := by
    rw [div_eq_iff hdQ.ne', ← Nat.cast_inj (R := ℚ)]; push_cast; constructor <;> intro h <;> linarith
  have habove : d < 2 * (n % d) ↔ 1 / 2 < ((n % d : ℕ) : ℚ) / d := by
    rw [lt_div_iff₀ hdQ, ← Nat.cast_lt (α := ℚ)]; push_cast; constructor <;> intro h <;> linarith
  rw [hsplit, roundHalfEven]
  simp only [hhalf, habove]
  generalize ((n % d : ℕ) : ℚ) / d = f at *
  generalize n / d = m
  split
  · next hup =>
    have hdist : |(m : ℚ) + f - (m + 1 : ℕ)| = 1 - f := by
      push_cast; rw [abs_of_nonpos] <;> linarith
    refine ⟨?_, fun htie => ?_⟩
    · rw [hdist]; rcases hup with h | ⟨h, -⟩ <;> linarith
    · rw [hdist] at htie
      rcases hup with h | ⟨-, h⟩
      · linarith
      · omega
  · next hdown =>
    push Not at hdown
    obtain ⟨hle, heven⟩ := hdown
    have hdist : |(m : ℚ) + f - m| = f := by rw [add_sub_cancel_left, abs_of_nonneg h0]
    refine ⟨by rw [hdist]; exact hle, fun htie => ?_⟩
    have := heven (hdist ▸ htie)
    omega

theorem two_zpow_of_nonneg {e : ℤ} (h : 0 ≤ e) : (2 : ℚ) ^ e = 2 ^ e.toNat := by
  rw [← zpow_natCast, Int.toNat_of_nonneg h]

theorem two_zpow_of_neg {e : ℤ} (h : ¬ 0 ≤ e) : (2 : ℚ) ^ e = (2 ^ (-e).toNat)⁻¹ := by
  rw [← two_zpow_of_nonneg (by omega), zpow_neg, inv_inv]

theorem two_zpow_natCast_add (a : ℕ) (e : ℤ) : (2 : ℚ) ^ ((a : ℤ) + e) = 2 ^ a * 2 ^ e := by
  rw [zpow_add₀ two_ne_zero, zpow_natCast]

theorem unitsAt_isNearestEven (u : ℤ) (p : ℕ) {q : ℕ} (hq : 0 < q) :
    IsNearestEven ((p : ℚ) / q / 2 ^ u) (unitsAt u p q) := by
  rw [unitsAt]
  split
  · have h := roundHalfEven_isNearestEven p (q * 2 ^ u.toNat) (by positivity)
    rw [two_zpow_of_nonneg ‹_›, div_div]
    exact_mod_cast h
  · have h := roundHalfEven_isNearestEven (p * 2 ^ (-u).toNat) q hq
    rw [two_zpow_of_neg ‹_›, div_inv_eq_mul, div_mul_eq_mul_div]
    exact_mod_cast h

theorem powLe_iff (e : ℤ) (p : ℕ) {q : ℕ} (hq : 0 < q) : powLe e p q = true ↔ (2 : ℚ) ^ e ≤ p / q := by
  have hqQ : (0 : ℚ) < q := by exact_mod_cast hq
  rw [powLe, le_div_iff₀ hqQ]
  split
  · rw [two_zpow_of_nonneg ‹_›, decide_eq_true_iff, mul_comm q]
    exact_mod_cast Iff.rfl
  · rw [two_zpow_of_neg ‹_›, decide_eq_true_iff, inv_mul_le_iff₀ (by positivity), mul_comm p]
    exact_mod_cast Iff.rfl

/-- The binary orders of numerator and denominator bound that of the fraction to within a factor of 2 either way. -/
theorem div_log2_bounds {p q : ℕ} (hp : 0 < p) (hq : 0 < q) :
    (2 : ℚ) ^ ((p.log2 : ℤ) - q.log2 - 1) ≤ p / q ∧ (p / q : ℚ) < 2 ^ ((p.log2 : ℤ) - q.log2 + 1) := by
  have hqQ : (0 : ℚ) < q := by exact_mod_cast hq
  have hpl : (2 : ℚ) ^ p.log2 ≤ p := by exact_mod_cast Nat.log2_self_le hp.ne'
  have hpu : (p : ℚ) < 2 ^ (p.log2 + 1) := by exact_mod_cast Nat.lt_log2_self
  have hql : (2 : ℚ) ^ q.log2 ≤ q := by exact_mod_cast Nat.log2_self_le hq.ne'
  have hqu : (q : ℚ) < 2 ^ (q.log2 + 1) := by exact_mod_cast Nat.lt_log2_self
  constructor
  · calc (2 : ℚ) ^ ((p.log2 : ℤ) - q.log2 - 1) = 2 ^ p.log2 / 2 ^ (q.log2 + 1) := by
          rw [sub_sub, zpow_sub₀ two_ne_zero]; rfl
      _ ≤ p / q := div_le_div₀ (by positivity) hpl hqQ hqu.le
  · calc (p / q : ℚ) < 2 ^ (p.log2 + 1) / 2 ^ q.log2 :=
          div_lt_div₀ hpu hql (by positivity) (by positivity)
      _ = 2 ^ ((p.log2 : ℤ) - q.log2 + 1) := by
          rw [sub_add_eq_add_sub, zpow_sub₀ two_ne_zero]; rfl

/-- The model's order of a positive fraction is the library's logarithm. -/
theorem floorLog2_eq_log {p q : ℕ} (hp : 0 < p) (hq : 0 < q) : floorLog2 p q = Int.log 2 ((p : ℚ) / q) := by
  have hx : (0 : ℚ) < p / q := by positivity
  have le_log (e : ℤ) : (2 : ℚ) ^ e ≤ p / q ↔ e ≤ Int.log 2 ((p : ℚ) / q) := by
    exact_mod_cast Int.zpow_le_iff_le_log (b := 2) one_lt_two hx
  obtain ⟨hlow, hhigh⟩ := div_log2_bounds hp hq
  rw [le_log] at hlow
  rw [← not_le, le_log] at hhigh
  simp only [floorLog2, powLe_iff _ p hq, le_log]
  split <;> omega

end Sys2Proof.Machine
end

