-- ==== Sys2Proof/Proofs/Binary64.lean ====
section
/-! PROOF. Binary64 numbers by their magnitude bits 62:0, which count them in order, and the rounding of a decimal to one
of them (00_scope.md R14). -/

namespace Sys2Proof.Machine

/-- Bits 62:0 of a binary64 number, as a number. -/
def magBits (b : BitVec 64) : ℕ := b.toNat % 2 ^ 63

/-- The value of magnitude bits `m`: exponent field `m / 2^52`, fraction field `m % 2^52`. -/
def magValue (m : ℕ) : ℚ :=
  if m / 2 ^ 52 = 0 then (m % 2 ^ 52 : ℕ) * 2 ^ (-1074 : ℤ)
  else (2 ^ 52 + m % 2 ^ 52 : ℕ) * 2 ^ (((m / 2 ^ 52 : ℕ) : ℤ) - 1075)

theorem exponentField_toNat (b : BitVec 64) : (b.extractLsb' 52 11).toNat = magBits b / 2 ^ 52 := by
  rw [BitVec.extractLsb'_toNat, Nat.shiftRight_eq_div_pow, magBits]; omega

theorem fractionField_toNat (b : BitVec 64) : (b.extractLsb' 0 52).toNat = magBits b % 2 ^ 52 := by
  rw [BitVec.extractLsb'_toNat, Nat.shiftRight_zero, magBits]; omega

theorem value64_eq (b : BitVec 64) :
    value64 b = signOf (b.getLsbD 63) * magValue (magBits b) := by
  rw [value64, exponentField_toNat, fractionField_toNat, magValue, signOf]

theorem isFinite64_iff (b : BitVec 64) : isFinite64 b = true ↔ magBits b < infMagnitude := by
  rw [isFinite64, bne_iff_ne, ne_eq, ← BitVec.toNat_inj, exponentField_toNat, magBits, infMagnitude, BitVec.toNat_ofNat]
  omega

/-- A count of `n` units of the `k`-th exponent has the value `n` units, also where it carries into the next exponent. -/
theorem magValue_units {k n : ℕ} (hle : n ≤ 2 ^ 53) (hge : k = 0 ∨ 2 ^ 52 ≤ n) :
    magValue (k * 2 ^ 52 + n) = n * (2 : ℚ) ^ ((k : ℤ) - 1074) := by
  obtain hn | ⟨f, hf, rfl⟩ | rfl : n < 2 ^ 52 ∨ (∃ f < 2 ^ 52, n = 2 ^ 52 + f) ∨ n = 2 ^ 53 := by
    by_cases hn : n < 2 ^ 52
    · exact .inl hn
    · by_cases hn' : n = 2 ^ 53
      · exact .inr (.inr hn')
      · exact .inr (.inl ⟨n - 2 ^ 52, by omega, by omega⟩)
  · obtain rfl : k = 0 := by omega
    have hdiv : (0 * 2 ^ 52 + n) / 2 ^ 52 = 0 := by omega
    have hmod : (0 * 2 ^ 52 + n) % 2 ^ 52 = n := by omega
    rw [magValue, if_pos hdiv, hmod]
    rfl
  · have hdiv : (k * 2 ^ 52 + (2 ^ 52 + f)) / 2 ^ 52 = k + 1 := by omega
    have hmod : (k * 2 ^ 52 + (2 ^ 52 + f)) % 2 ^ 52 = f := by omega
    rw [magValue, hdiv, hmod, if_neg (Nat.succ_ne_zero k)]
    congr 2
    omega
  · have hdiv : (k * 2 ^ 52 + 2 ^ 53) / 2 ^ 52 = k + 2 := by omega
    have hmod : (k * 2 ^ 52 + 2 ^ 53) % 2 ^ 52 = 0 := by omega
    have hexp : ((k + 2 : ℕ) : ℤ) - 1075 = (k : ℤ) - 1074 + 1 := by omega
    rw [magValue, hdiv, hmod, if_neg (by omega), hexp, zpow_add_one₀ two_ne_zero]
    push_cast
    ring

/-- Every magnitude is a whole number, below `2^53`, of the units of one of the exponents. -/
theorem magValue_eq_units (m : ℕ) : ∃ i s : ℕ, s < 2 ^ 53 ∧ magValue m = s * (2 : ℚ) ^ ((i : ℤ) - 1074) := by
  rw [magValue]
  split
  · exact ⟨0, m % 2 ^ 52, by omega, rfl⟩
  · exact ⟨m / 2 ^ 52 - 1, 2 ^ 52 + m % 2 ^ 52, by omega, by congr 2; omega⟩

theorem magValue_nonneg (m : ℕ) : 0 ≤ magValue m := by
  obtain ⟨i, s, -, h⟩ := magValue_eq_units m
  rw [h]; positivity

/-- Measured in units of the `k`-th exponent, a magnitude is a whole number or below `2^52`. -/
theorem magValue_on_grid (m k : ℕ) :
    (∃ N : ℕ, magValue m = N * (2 : ℚ) ^ ((k : ℤ) - 1074)) ∨
      (k ≠ 0 ∧ magValue m < 2 ^ 52 * (2 : ℚ) ^ ((k : ℤ) - 1074)) := by
  obtain ⟨i, s, hs, hm⟩ := magValue_eq_units m
  rw [hm]
  by_cases hik : k ≤ i
  · refine .inl ⟨s * 2 ^ (i - k), ?_⟩
    rw [show (i : ℤ) - 1074 = ((i - k : ℕ) : ℤ) + (k - 1074) by omega, zpow_add₀ two_ne_zero, zpow_natCast]
    push_cast; ring
  · refine .inr ⟨by omega, ?_⟩
    calc (s : ℚ) * 2 ^ ((i : ℤ) - 1074) < 2 ^ 53 * 2 ^ ((i : ℤ) - 1074) := by
          gcongr; exact_mod_cast hs
      _ = 2 ^ 52 * 2 ^ ((i : ℤ) + 1 - 1074) := by
          rw [add_sub_right_comm, zpow_add_one₀ two_ne_zero]; ring
      _ ≤ 2 ^ 52 * 2 ^ ((k : ℤ) - 1074) := by
          gcongr
          · exact one_le_two
          · omega

/-- `n` units of the `k`-th exponent round `x` to 53 significant bits, or to units of `2^-1074` where that is coarser. -/
structure IsRounding (x : ℚ) (k n : ℕ) : Prop where
  nearest : IsNearestEven (x / 2 ^ ((k : ℤ) - 1074)) n
  lt      : x / 2 ^ ((k : ℤ) - 1074) < 2 ^ 53
  normal  : k ≠ 0 → 2 ^ 52 ≤ x / 2 ^ ((k : ℤ) - 1074)

theorem IsRounding.le {x : ℚ} {k n : ℕ} (h : IsRounding x k n) : n ≤ 2 ^ 53 :=
  h.nearest.le_of_lt_natCast (by simpa only [Nat.cast_pow, Nat.cast_ofNat] using h.lt)

theorem IsRounding.ge {x : ℚ} {k n : ℕ} (h : IsRounding x k n) (hk : k ≠ 0) : 2 ^ 52 ≤ n :=
  h.nearest.le_of_natCast_le (by simpa only [Nat.cast_pow, Nat.cast_ofNat] using h.normal hk)

theorem IsRounding.magValue_eq {x : ℚ} {k n : ℕ} (h : IsRounding x k n) :
    magValue (k * 2 ^ 52 + n) = n * (2 : ℚ) ^ ((k : ℤ) - 1074) :=
  magValue_units h.le (or_iff_not_imp_left.2 h.ge)

/-- The model's magnitude bits count a rounding, cut off at infinity. -/
theorem magnitudeBits_isRounding (p : ℕ) {q : ℕ} (hq : 0 < q) :
    ∃ k n, IsRounding ((p : ℚ) / q) k n ∧ magnitudeBits p q = min (k * 2 ^ 52 + n) infMagnitude := by
  rcases Nat.eq_zero_or_pos p with rfl | hp
  · exact ⟨0, 0, ⟨⟨by norm_num, by norm_num⟩, by norm_num, by simp⟩, by simp [magnitudeBits]⟩
  · have hx : (0 : ℚ) < p / q := by positivity
    have hlog := floorLog2_eq_log hp hq
    have hk : ((ulpExp p q + 1074).toNat : ℤ) - 1074 = ulpExp p q := by rw [ulpExp]; omega
    refine ⟨(ulpExp p q + 1074).toNat, unitsAt (ulpExp p q) p q, ⟨?_, ?_, fun hne => ?_⟩, ?_⟩
    · rw [hk]; exact unitsAt_isNearestEven _ p hq
    · rw [hk, div_lt_iff₀ (by positivity)]
      calc (p / q : ℚ) < 2 ^ (floorLog2 p q + 1) := by
            rw [hlog]; exact_mod_cast Int.lt_zpow_succ_log_self (b := 2) one_lt_two ((p : ℚ) / q)
        _ ≤ 2 ^ (((53 : ℕ) : ℤ) + ulpExp p q) := by
            apply zpow_le_zpow_right₀ one_le_two; rw [ulpExp]; omega
        _ = 2 ^ 53 * 2 ^ ulpExp p q := two_zpow_natCast_add 53 _
    · rw [hk, le_div_iff₀ (by positivity)]
      calc (2 : ℚ) ^ 52 * 2 ^ ulpExp p q = 2 ^ (((52 : ℕ) : ℤ) + ulpExp p q) :=
            (two_zpow_natCast_add 52 _).symm
        _ = 2 ^ floorLog2 p q := by congr 1; rw [ulpExp] at hne ⊢; omega
        _ ≤ p / q := by
            rw [hlog]; exact_mod_cast Int.zpow_log_le_self (b := 2) one_lt_two hx
    · rw [magnitudeBits, if_neg hp.ne']

/-- Magnitude bits depend on the fraction's value alone. -/
theorem magnitudeBits_congr {p q p' q' : ℕ} (hq : 0 < q) (hq' : 0 < q') (h : (p : ℚ) / q = p' / q') :
    magnitudeBits p q = magnitudeBits p' q' := by
  have hqQ : (q : ℚ) ≠ 0 := by exact_mod_cast hq.ne'
  have hqQ' : (q' : ℚ) ≠ 0 := by exact_mod_cast hq'.ne'
  have hzero : p = 0 ↔ p' = 0 := by
    rw [← Nat.cast_eq_zero (R := ℚ), ← Nat.cast_eq_zero (R := ℚ)]
    rw [← div_eq_zero_iff.trans (or_iff_left hqQ), h, div_eq_zero_iff.trans (or_iff_left hqQ')]
  rcases Nat.eq_zero_or_pos p with hp | hp
  · rw [magnitudeBits, magnitudeBits, if_pos hp, if_pos (hzero.1 hp)]
  · have hp' : p' ≠ 0 := fun h0 => hp.ne' (hzero.2 h0)
    have hulp : ulpExp p q = ulpExp p' q' := by
      rw [ulpExp, ulpExp, floorLog2_eq_log hp hq, floorLog2_eq_log (Nat.pos_of_ne_zero hp') hq', h]
    have hunits : unitsAt (ulpExp p q) p q = unitsAt (ulpExp p q) p' q' :=
      (unitsAt_isNearestEven _ p hq).unique (h ▸ unitsAt_isNearestEven _ p' hq')
    rw [magnitudeBits, magnitudeBits, if_neg hp.ne', if_neg hp', hunits, hulp]

theorem fracOf_pos (d : Dec) : 0 < (fracOf d).2 := by
  rw [fracOf]; split <;> positivity

theorem fracOf_eq_abs_val (d : Dec) : ((fracOf d).1 : ℚ) / (fracOf d).2 = |val d| := by
  rw [fracOf, abs_val]
  split
  · have he : d.exp = (d.exp.toNat : ℤ) := by omega
    conv_rhs => rw [he, zpow_natCast]
    simp
  · have he : d.exp = -((-d.exp).toNat : ℤ) := by omega
    conv_rhs => rw [he, zpow_neg, zpow_natCast]
    simp [div_eq_mul_inv]

theorem binary64_congr {a b : Dec} (hneg : a.neg = b.neg) (habs : |val a| = |val b|) : binary64 a = binary64 b := by
  have hfrac : ((fracOf a).1 : ℚ) / (fracOf a).2 = (fracOf b).1 / (fracOf b).2 := by
    rw [fracOf_eq_abs_val, fracOf_eq_abs_val, habs]
  rw [binary64, binary64, hneg, magnitudeBits_congr (fracOf_pos a) (fracOf_pos b) hfrac]

/-- Settles O45: formatter and `binary64` read a decimal through its sign and magnitude, which `sameDec` compares. -/
theorem equalDecimalsAreSpelledAlike : Obligations.EqualDecimalsAreSpelledAlike := by
  intro a b h
  obtain ⟨hneg, habs⟩ := (sameDec_iff a b).1 h
  exact ⟨fmt4_congr hneg habs, binary64_congr hneg habs⟩

/-- A rounding is below infinity exactly when the number is below the midpoint of the largest finite number and `2^1024`. -/
theorem IsRounding.lt_inf_iff {x : ℚ} {k n : ℕ} (h : IsRounding x k n) :
    k * 2 ^ 52 + n < infMagnitude ↔ x < 2 ^ 1024 - 2 ^ 970 := by
  have hg : (0 : ℚ) < 2 ^ ((k : ℤ) - 1074) := by positivity
  have hG : (0 : ℚ) < 2 ^ (970 : ℤ) := by positivity
  have hbound : (2 : ℚ) ^ 1024 - 2 ^ 970 = (2 ^ 54 - 1) * 2 ^ (970 : ℤ) := by
    rw [show 1024 = 54 + 970 from rfl, pow_add, sub_one_mul, show (970 : ℤ) = ((970 : ℕ) : ℤ) from rfl, zpow_natCast]
  rw [hbound]
  rcases lt_trichotomy k 2045 with hk | rfl | hk
  · have hle := h.le
    have hpow : (2 : ℚ) ^ ((k : ℤ) - 1074) ≤ 2 ^ (970 : ℤ) := zpow_le_zpow_right₀ one_le_two (by omega)
    refine iff_of_true (by rw [infMagnitude]; omega) ?_
    calc x < 2 ^ 53 * 2 ^ ((k : ℤ) - 1074) := (div_lt_iff₀ hg).1 h.lt
      _ ≤ 2 ^ 53 * 2 ^ (970 : ℤ) := by gcongr
      _ < (2 ^ 54 - 1) * 2 ^ (970 : ℤ) := by gcongr; norm_num
  · have hcarry : 2045 * 2 ^ 52 + n < infMagnitude ↔ n < 2 ^ 53 := by rw [infMagnitude]; omega
    have hpow : (2 : ℚ) ^ (((2045 : ℕ) : ℤ) - 1074) = 2 * 2 ^ (970 : ℤ) := by
      rw [← zpow_one_add₀ two_ne_zero]; congr 1
    have hmid (g : ℚ) : (((2 ^ 53 : ℕ) : ℚ) - 1 / 2) * (2 * g) = (2 ^ 54 - 1) * g := by
      push_cast; ring
    rw [hcarry, h.nearest.lt_even_iff (by norm_num), div_lt_iff₀ hg, hpow, hmid]
  · have hge := h.ge (by omega)
    have hpow : (2 : ℚ) ^ (2 + 970 : ℤ) ≤ 2 ^ ((k : ℤ) - 1074) := zpow_le_zpow_right₀ one_le_two (by omega)
    refine iff_of_false (by rw [infMagnitude]; omega) (not_lt.2 ?_)
    calc (2 ^ 54 - 1) * (2 : ℚ) ^ (970 : ℤ) ≤ 2 ^ 52 * 2 ^ (2 : ℤ) * 2 ^ (970 : ℤ) := by gcongr; norm_num
      _ = 2 ^ 52 * 2 ^ (2 + 970 : ℤ) := by rw [mul_assoc, ← zpow_add₀ two_ne_zero]
      _ ≤ 2 ^ 52 * 2 ^ ((k : ℤ) - 1074) := by gcongr
      _ ≤ x := (le_div_iff₀ hg).1 (h.normal (by omega))

/-- A rounding is at least as near as any number that is whole in its units or too small for its exponent; it is even
where another one is equally near. -/
theorem IsRounding.nearest_on_grid {x z : ℚ} {k n : ℕ} (h : IsRounding x k n)
    (hz : (∃ N : ℤ, z = N * (2 : ℚ) ^ ((k : ℤ) - 1074)) ∨ (k ≠ 0 ∧ z < 2 ^ 52 * (2 : ℚ) ^ ((k : ℤ) - 1074))) :
    |x - n * (2 : ℚ) ^ ((k : ℤ) - 1074)| ≤ |x - z| ∧
      (|x - n * (2 : ℚ) ^ ((k : ℤ) - 1074)| = |x - z| → z ≠ n * (2 : ℚ) ^ ((k : ℤ) - 1074) → n % 2 = 0) := by
  obtain ⟨hnear, -, hnormal⟩ := h
  have hg : (0 : ℚ) < 2 ^ ((k : ℤ) - 1074) := by positivity
  generalize (2 : ℚ) ^ ((k : ℤ) - 1074) = g at *
  obtain ⟨t, rfl⟩ : ∃ t, x = t * g := ⟨x / g, (div_mul_cancel₀ x hg.ne').symm⟩
  rw [mul_div_cancel_right₀ _ hg.ne'] at hnear hnormal
  have dist (w : ℚ) : |t * g - w * g| = |t - w| * g := by rw [← sub_mul, abs_mul, abs_of_pos hg]
  rcases hz with ⟨N, rfl⟩ | ⟨hk, hlt⟩
  · simp only [dist, mul_left_inj' hg.ne', mul_le_mul_iff_left₀ hg]
    exact ⟨hnear.le_dist N, fun he hne => hnear.even_of_eq_dist (fun hN => hne (by simp [hN])) he⟩
  · -- `2^52` units lie between `z` and `x`
    have ht := hnormal hk
    have hle : |t - n| ≤ t - 2 ^ 52 := by
      rw [← abs_of_nonneg (sub_nonneg.2 ht)]
      exact_mod_cast hnear.le_dist ((2 ^ 52 : ℕ) : ℤ)
    have hstrict : |t * g - n * g| < |t * g - z| := by
      calc |t * g - n * g| ≤ (t - 2 ^ 52) * g := by rw [dist]; gcongr
        _ < t * g - z := by linarith
        _ ≤ |t * g - z| := le_abs_self _
    exact ⟨hstrict.le, fun he => absurd he hstrict.ne⟩

theorem magnitudeBits_le_inf (p q : ℕ) : magnitudeBits p q ≤ infMagnitude := by
  rw [magnitudeBits]; split
  · exact Nat.zero_le _
  · exact min_le_right _ _

/-- The concatenation in `binary64` loses nothing: the magnitude bits fit below the sign bit. -/
theorem magBits_binary64 (d : Dec) : magBits (binary64 d) = magnitudeBits (fracOf d).1 (fracOf d).2 := by
  have hle := magnitudeBits_le_inf (fracOf d).1 (fracOf d).2
  rw [infMagnitude] at hle
  rw [magBits, binary64, toNat_append_eq, BitVec.toNat_ofNat]
  omega

theorem binary64_sign (d : Dec) : (binary64 d).getLsbD 63 = d.neg := by
  rw [binary64, BitVec.getLsbD_append]
  simp

theorem extractLsb'_of_magBits_eq_inf {b : BitVec 64} (h : magBits b = infMagnitude) :
    b.extractLsb' 0 63 = 0x7FF0000000000000#63 := by
  rw [← BitVec.toNat_inj, BitVec.extractLsb'_toNat, Nat.shiftRight_zero, ← magBits, h]
  rfl

/-- A number with a magnitude's value, of either sign, is whole in the units of the `k`-th exponent or too small for it. -/
theorem signOf_mul_value64_on_grid (neg : Bool) (y : BitVec 64) (k : ℕ) :
    (∃ N : ℤ, signOf neg * value64 y = N * (2 : ℚ) ^ ((k : ℤ) - 1074)) ∨
      (k ≠ 0 ∧ signOf neg * value64 y < 2 ^ 52 * (2 : ℚ) ^ ((k : ℤ) - 1074)) := by
  have h0 := magValue_nonneg (magBits y)
  obtain hpos | hneg : signOf neg * value64 y = magValue (magBits y) ∨
      signOf neg * value64 y = -magValue (magBits y) := by
    rw [value64_eq]; cases neg <;> cases y.getLsbD 63 <;> simp
  · rw [hpos]
    rcases magValue_on_grid (magBits y) k with ⟨N, hN⟩ | hsmall
    · exact .inl ⟨N, by simpa using hN⟩
    · exact .inr hsmall
  · rw [hneg]
    rcases magValue_on_grid (magBits y) k with ⟨N, hN⟩ | ⟨hk, hlt⟩
    · exact .inl ⟨-N, by rw [hN, Int.cast_neg, Int.cast_natCast, neg_mul]⟩
    · exact .inr ⟨hk, by linarith⟩

/-- What the bits of a decimal are: the rounding of its magnitude, or the magnitude bits of infinity. -/
theorem binary64_isRounding (d : Dec) : ∃ k n, IsRounding |val d| k n ∧
    magBits (binary64 d) = min (k * 2 ^ 52 + n) infMagnitude := by
  rw [magBits_binary64, ← fracOf_eq_abs_val]
  exact magnitudeBits_isRounding _ (fracOf_pos d)

/-- Settles O48: `binary64` is a rounding of the magnitude, and every finite number is whole in the rounding's units or
nearer to 0 than the least normal number of its exponent. -/
theorem binary64IsNearest : Obligations.Binary64IsNearest := by
  intro d
  obtain ⟨k, n, hround, hbits⟩ := binary64_isRounding d
  have hfin : isFinite64 (binary64 d) = true ↔ k * 2 ^ 52 + n < infMagnitude := by
    rw [isFinite64_iff, hbits]; omega
  refine ⟨binary64_sign d, hfin.trans hround.lt_inf_iff, fun hinf => ?_, fun hlt y _ => ?_⟩
  · rw [← Bool.not_eq_true, hfin] at hinf
    exact extractLsb'_of_magBits_eq_inf (by rw [hbits]; omega)
  · have hmag : magBits (binary64 d) = k * 2 ^ 52 + n := by
      rw [hbits]; exact min_eq_left (hfin.1 hlt).le
    have hval : value64 (binary64 d) = signOf d.neg * (n * (2 : ℚ) ^ ((k : ℤ) - 1074)) := by
      rw [value64_eq, binary64_sign, hmag, hround.magValue_eq]
    obtain ⟨hle, heven⟩ := hround.nearest_on_grid (signOf_mul_value64_on_grid d.neg y k)
    rw [val_eq_signOf_mul_abs d, abs_signOf_mul_sub, abs_signOf_mul_sub, hval, signOf_mul_signOf_mul]
    refine ⟨hle, fun htie hne => ?_⟩
    have hn := heven htie (fun h => hne (by rw [← h, signOf_mul_signOf_mul]))
    simp only [BitVec.getLsbD, Nat.testBit_zero, decide_eq_false_iff_not]
    rw [magBits] at hmag
    omega

end Sys2Proof.Machine
end

