-- ==== Sys2Proof/Proofs/StatusFields.lean ====
section
/-! PROOF. The fields of STATUS (10_state.md R26), read from the word as digits of the number it is. -/

namespace Sys2Proof.Machine

/-- The bits from `k` on are the number's quotient by `2^k`, cut to their width. -/
theorem extractLsb'_eq_of_toNat {w n : Nat} {st : BitVec w} {x : BitVec n} (k : Nat)
    (h : st.toNat / 2 ^ k % 2 ^ n = x.toNat) : st.extractLsb' k n = x := by
  rw [← BitVec.toNat_inj, BitVec.extractLsb'_toNat, Nat.shiftRight_eq_div_pow, h]

section packStatus
variable (a : Bool) (sub : BitVec 3) (c : BitVec 4) (tb : Bool) (tg : BitVec 3) (n : Bool) (e : BitVec 2) (d : Bool)

@[simp] theorem statusDone_packStatus : statusDone (packStatus a sub c tb tg n e d) = BitVec.ofBool d :=
  extractLsb'_eq_of_toNat 0 (by
    have := d.toNat_le
    rw [packStatus_toNat, BitVec.toNat_ofBool]; omega)

@[simp] theorem statusErr_packStatus : statusErr (packStatus a sub c tb tg n e d) = e :=
  extractLsb'_eq_of_toNat 1 (by
    have := d.toNat_le
    rw [packStatus_toNat]; omega)

@[simp] theorem statusNeg_packStatus : statusNeg (packStatus a sub c tb tg n e d) = BitVec.ofBool n :=
  extractLsb'_eq_of_toNat 3 (by
    have := d.toNat_le
    have := n.toNat_le
    rw [packStatus_toNat, BitVec.toNat_ofBool]; omega)

@[simp] theorem statusTarget_packStatus : statusTarget (packStatus a sub c tb tg n e d) = tg :=
  extractLsb'_eq_of_toNat 4 (by
    have := d.toNat_le
    have := n.toNat_le
    rw [packStatus_toNat]; omega)

@[simp] theorem statusTabled_packStatus : statusTabled (packStatus a sub c tb tg n e d) = BitVec.ofBool tb :=
  extractLsb'_eq_of_toNat 7 (by
    have := d.toNat_le
    have := n.toNat_le
    have := tb.toNat_le
    rw [packStatus_toNat, BitVec.toNat_ofBool]; omega)

@[simp] theorem statusMcode_packStatus : statusMcode (packStatus a sub c tb tg n e d) = c :=
  extractLsb'_eq_of_toNat 8 (by
    have := d.toNat_le
    have := n.toNat_le
    have := tb.toNat_le
    rw [packStatus_toNat]; omega)

@[simp] theorem statusSubrange_packStatus : statusSubrange (packStatus a sub c tb tg n e d) = sub :=
  extractLsb'_eq_of_toNat 12 (by
    have := d.toNat_le
    have := n.toNat_le
    have := tb.toNat_le
    rw [packStatus_toNat]; omega)

@[simp] theorem statusAnyflag_packStatus : statusAnyflag (packStatus a sub c tb tg n e d) = BitVec.ofBool a :=
  extractLsb'_eq_of_toNat 15 (by
    have := d.toNat_le
    have := n.toNat_le
    have := tb.toNat_le
    have := a.toNat_le
    rw [packStatus_toNat, BitVec.toNat_ofBool]; omega)

end packStatus

/-- Settles O43: each field read back from the packed word, and the word as a number. -/
theorem statusFieldsReadBack : Obligations.StatusFieldsReadBack := by
  intro a sub c tb tg n e d
  exact ⟨statusDone_packStatus .., statusErr_packStatus .., statusNeg_packStatus .., statusTarget_packStatus ..,
    statusTabled_packStatus .., statusMcode_packStatus .., statusSubrange_packStatus .., statusAnyflag_packStatus ..,
    packStatus_toNat ..⟩

end Sys2Proof.Machine
end

