-- ==== Sys2Proof/Proofs/Registers.lean ====
section
/-! PROOF. Which command writes what (10_state.md R20 to R32): frame facts of the shared operations, read off the one
lemma that says all an instruction can do. -/

namespace Sys2Proof.Machine

theorem sameRegisters_of_latch {s t : State} (hl : ∀ q, s.latch q = t.latch q) (hr : s.readable = t.readable)
    (hs : s.status = t.status) (hf : s.flags = t.flags) : sameRegisters s t :=
  ⟨hl .voltage, hl .current, hl .resistance, hl .frequency, hr, hs, hf⟩

theorem sameRegisters_respond (s : State) (bs : Bytes) : sameRegisters (s.respond bs) s :=
  sameRegisters_of_latch (fun q => s.latch_respond bs q) rfl rfl rfl

theorem sameRegisters_respond_countDraw (s : State) (bs : Bytes) : sameRegisters (s.respond bs).countDraw s :=
  sameRegisters_of_latch (fun q => by simp) rfl rfl rfl

section raiseError
variable (e : DecodeError) (s : State)

@[simp] theorem latch_raiseError (q : Quantity) : (raiseError e s).latch q = s.latch q := by simp [raiseError]
@[simp] theorem raiseError_readable : (raiseError e s).readable = [] := rfl
@[simp] theorem raiseError_status : (raiseError e s).status = errorStatus e := rfl
@[simp] theorem raiseError_flags : (raiseError e s).flags = 0#32 := rfl
@[simp] theorem raiseError_params : (raiseError e s).params = s.params := rfl
@[simp] theorem raiseError_input : (raiseError e s).input = s.input := rfl
@[simp] theorem raiseError_sent : (raiseError e s).sent = s.sent ++ decodeResponse (errorCode e) [] := rfl
@[simp] theorem raiseError_nanDraws : (raiseError e s).nanDraws = s.nanDraws := rfl

end raiseError

section commitReading
variable (c : BitVec 4) (sub : BitVec 3) (rd : Reading) (s : State)

@[simp] theorem commitReading_readable : (commitReading c sub rd s).readable = rd.readable := rfl
@[simp] theorem commitReading_status : (commitReading c sub rd s).status = successStatus c sub rd := rfl
@[simp] theorem commitReading_flags : (commitReading c sub rd s).flags = rd.scan.hits := rfl
@[simp] theorem commitReading_params : (commitReading c sub rd s).params = s.params := by simp [commitReading]
@[simp] theorem commitReading_input : (commitReading c sub rd s).input = s.input := by simp [commitReading]
@[simp] theorem commitReading_sent : (commitReading c sub rd s).sent = s.sent ++ decodeResponse 0#2 rd.readable := by
  simp [commitReading]
@[simp] theorem commitReading_nanDraws : (commitReading c sub rd s).nanDraws = s.nanDraws := by simp [commitReading]

end commitReading

/-- Settles O25: of all an instruction can do, an answer that is neither a DECODE's nor RESET's is a response sent. -/
theorem onlyDecodeAndResetWriteRegisters : Obligations.OnlyDecodeAndResetWriteRegisters := by
  intro i s t h hdecode hreset
  obtain ⟨-, ⟨hd, -⟩ | ⟨c, fr, mt, rd, hf, -⟩ | ⟨-, bs, rfl⟩ | ⟨-, rfl⟩ | ⟨hi, -⟩⟩ := exec_next h
  · simp [hd] at hdecode
  · simp [isDecode_of_frameOf hf] at hdecode
  · exact sameRegisters_respond s bs
  · exact sameRegisters_respond_countDraw s _
  · exact absurd hi hreset

/-- Settles O26: the error commit, the commit of a reading, a response, a NaN draw and RESET each leave these fields. -/
theorem noCommandWritesTheConfiguration : Obligations.NoCommandWritesTheConfiguration := by
  intro i s t h
  obtain ⟨-, ⟨-, e, rfl⟩ | ⟨c, fr, mt, rd, -, -, -, rfl⟩ | ⟨-, bs, rfl⟩ | ⟨hd, rfl⟩ | ⟨-, rfl⟩⟩ := exec_next h
  · exact ⟨rfl, rfl, ⟨_, rfl⟩, fun _ => rfl, le_rfl⟩
  · exact ⟨by simp, by simp, ⟨_, commitReading_sent ..⟩, fun _ => by simp, by simp⟩
  · exact ⟨rfl, rfl, ⟨bs, rfl⟩, fun _ => rfl, le_rfl⟩
  · exact ⟨rfl, rfl, ⟨_, rfl⟩, fun hd' => by simp [hd] at hd', Nat.le_succ _⟩
  · exact ⟨rfl, rfl, ⟨[], (List.append_nil _).symm⟩, fun _ => rfl, le_rfl⟩

/-- A DECODE carries a frame of valid layout or is too short for one. -/
theorem frameOf_or_short {i : Instr} (h : isDecode i = true) :
    (∃ c fr, frameOf i = some (c, fr)) ∨ ∃ f, i = .decode f ∧ parseFrame f = none := by
  cases i with
  | decode f =>
    cases hp : parseFrame f with
    | none => exact .inr ⟨f, rfl, hp⟩
    | some p => exact .inl ⟨p.1, p.2, hp⟩
  | rdVoltage | rdCurrent | rdResistance | rdFrequency | rdReadable | rdStatus | rdFlags | reset => cases h
  | _ => exact .inl ⟨_, _, rfl⟩

/-- All a DECODE does when it answers a next state is decided by the parameters: an error raised or a reading
committed. -/
theorem exec_decode_next {i : Instr} {s t : State} (hd : isDecode i = true) (h : exec i s = .next t) :
    (∃ e, ∀ s' : State, s.params = s'.params → exec i s' = .next (raiseError e s'.clearLatches)) ∨
    (∃ c sub rd, ∀ s' : State, s.params = s'.params → exec i s' = .next (commitReading c sub rd s'.clearLatches)) := by
  have hwf := (exec_next h).1
  rcases frameOf_or_short hd with ⟨c, fr, hf⟩ | ⟨f, rfl, hshort⟩
  · rw [exec_of_frameOf hf] at h
    obtain ⟨-, mt, hmt, ⟨e, hr, -⟩ | ⟨rd, hr, -⟩⟩ := performFrame_next h
    · exact .inl ⟨e, fun s' hs => by rw [exec_frame hf (hs ▸ hwf) (hs ▸ hmt), ← hs, hr]⟩
    · exact .inr ⟨c, fr.sub, rd, fun s' hs => by rw [exec_frame hf (hs ▸ hwf) (hs ▸ hmt), ← hs, hr]⟩
  · exact .inl ⟨.length, fun s' hs => by
      rw [exec, execDecode, hshort, performShort, whenAdmitted_of_wf _ (hs ▸ hwf)]⟩

/-- Settles O18: the error or the reading is decided by the parameters, and either commit overwrites every register. -/
theorem decodeReadsNoRegister : Obligations.DecodeReadsNoRegister := by
  intro i s s' t t' hd hs h h'
  rcases exec_decode_next hd h with ⟨e, hexec⟩ | ⟨c, sub, rd, hexec⟩
  · cases (hexec s rfl).symm.trans h
    cases (hexec s' hs).symm.trans h'
    exact ⟨sameRegisters_of_latch (fun q => by simp) rfl rfl rfl, _, rfl, rfl⟩
  · cases (hexec s rfl).symm.trans h
    cases (hexec s' hs).symm.trans h'
    exact ⟨sameRegisters_of_latch (fun q => by rw [commitReading_latch, commitReading_latch]) rfl rfl rfl, _,
      commitReading_sent .., commitReading_sent ..⟩

/-- Settles O30: the registers of the state after reset, read off its definition. -/
theorem powerOnRegisters : Obligations.PowerOnRegisters :=
  ⟨fun q => by cases q <;> rfl, rfl, rfl, rfl⟩

end Sys2Proof.Machine
end

