-- ==== Sys2Proof/Proofs/FlagScan.lean ====
section
/-! PROOF. What the flag scan collects (41_decode.md R111 to R114), by recursion on the flag table. -/

namespace Sys2Proof.Machine

/-- Bit `k` is set exactly when the entry numbered `k` fires, entries being numbered from `i` on. -/
theorem flagScanFrom_hits (fr : Frame) (i : Nat) (ft : List FlagBit) (k : Nat) :
    (flagScanFrom fr i ft).hits.getLsbD k = true ↔
      k < 32 ∧ ∃ j fb, k = i + j ∧ ft[j]? = some fb ∧ fires fr fb = true := by
  induction ft generalizing i with
  | nil => simp
  | cons fb ft ih =>
    have hsplit : (∃ j g, k = i + j ∧ (fb :: ft)[j]? = some g ∧ fires fr g = true) ↔
        (k = i ∧ fires fr fb = true) ∨ ∃ j g, k = i + 1 + j ∧ ft[j]? = some g ∧ fires fr g = true := by
      constructor
      · rintro ⟨_ | j, g, hk, hg, hfire⟩
        · cases hg; exact .inl ⟨hk, hfire⟩
        · exact .inr ⟨j, g, by omega, hg, hfire⟩
      · rintro (⟨hk, hfire⟩ | ⟨j, g, hk, hg, hfire⟩)
        · exact ⟨0, fb, hk, rfl, hfire⟩
        · exact ⟨j + 1, g, by omega, hg, hfire⟩
    rw [hsplit]
    cases hf : fires fr fb with
    | false => simp [flagScanFrom_cons_quiet _ _ _ _ hf, ih]
    | true =>
      have hbit : (1#32 <<< i).getLsbD k = true ↔ k < 32 ∧ k = i := by
        simp [BitVec.getLsbD_one]; omega
      rw [flagScanFrom_cons_fires _ _ _ _ hf, BitVec.getLsbD_or, Bool.or_eq_true, ih, hbit,
        ← and_or_left, or_comm]
      simp

/-- The tags are those of the display entries that fire, in table order. -/
theorem flagScanFrom_tags (fr : Frame) (i : Nat) (ft : List FlagBit) :
    (flagScanFrom fr i ft).tags = (ft.filter (fun fb => !isSign fb && fires fr fb)).map FlagBit.tag := by
  induction ft generalizing i with
  | nil => rfl
  | cons fb ft ih =>
    cases hf : fires fr fb with
    | false => simp [flagScanFrom_cons_quiet _ _ _ _ hf, ih, hf]
    | true => cases hs : isSign fb <;> simp [flagScanFrom_cons_fires _ _ _ _ hf, ih, hf, hs]

section flagScan
variable (ft : List FlagBit) (fr : Frame)

theorem flagScan_hits (k : Nat) : (flagScan ft fr).hits.getLsbD k = true ↔
    k < 32 ∧ ∃ fb, ft[k]? = some fb ∧ fires fr fb = true := by
  rw [flagScan, flagScanFrom_hits]
  simp

theorem flagScan_tags :
    (flagScan ft fr).tags = (ft.filter (fun fb => !isSign fb && fires fr fb)).map FlagBit.tag :=
  flagScanFrom_tags fr 0 ft

theorem flagScan_any : (flagScan ft fr).any = true ↔ ∃ fb ∈ ft, isSign fb = false ∧ fires fr fb = true := by
  simp [FlagScan.any, flagScan_tags]

/-- The bits past the table are clear. -/
theorem flagScan_hits_past {k : Nat} (hk : ft.length ≤ k) : (flagScan ft fr).hits.getLsbD k = false := by
  rw [Bool.eq_false_iff, Ne, flagScan_hits, List.getElem?_eq_none hk]
  simp

/-- `anyflag` by the bits of `hits`, in a table with one bit for each entry. -/
theorem flagScan_any_iff_hits (hlen : ft.length ≤ 32) : (flagScan ft fr).any = true ↔
    ∃ k fb, ft[k]? = some fb ∧ isSign fb = false ∧ (flagScan ft fr).hits.getLsbD k = true := by
  simp only [flagScan_any, flagScan_hits]
  constructor
  · rintro ⟨fb, hmem, hsign, hfire⟩
    obtain ⟨k, hk, hget⟩ := List.mem_iff_getElem.1 hmem
    have hget? := List.getElem?_eq_some_iff.2 ⟨hk, hget⟩
    exact ⟨k, fb, hget?, hsign, by omega, fb, hget?, hfire⟩
  · rintro ⟨k, fb, hget, hsign, -, g, hg, hfire⟩
    cases hget.symm.trans hg
    exact ⟨fb, List.mem_of_getElem? hget, hsign, hfire⟩

end flagScan

end Sys2Proof.Machine
end

