-- ==== Sys2Proof/Proofs/Reading.lean ====
section
/-! PROOF. What a reading is made of (41_decode.md R104 to R121), and the checks of an admitted configuration
(40_tables.md R86) one by one. -/

namespace Sys2Proof.Machine

/-- A reading is put together from the label that was looked up, the magnitude and the flag scan. -/
theorem reading_ok {p : Params} {mt : MeasType} {fr : Frame} {rd : Reading} (h : reading p mt fr = .ok rd) :
    ∃ look m, lookupRange mt fr.sub = some look ∧ magnitude p.magPolicy (window fr) = some m ∧
      rd = ⟨rawOf m look.mexp (flagScan p.cfg.ft fr).neg, look, flagScan p.cfg.ft fr,
        readableOf p.negZero (rawOf m look.mexp (flagScan p.cfg.ft fr).neg) look.label (flagScan p.cfg.ft fr)⟩ := by
  unfold reading at h
  split at h
  · cases h
  · split at h <;> cases h
    exact ⟨_, _, ‹_›, ‹_›, rfl⟩

/-- A byte that is of class digit or point and is no point has a digit's value. -/
theorem digitVal_le_of_numeric {w : Byte} (h : magClass w ≠ .other) (hpoint : w ≠ 0x2E#8) : digitVal w ≤ 9 := by
  have hdigit : isDigit w = true := by
    by_contra hd
    simp [magClass, hd, hpoint] at h
  simp only [isDigit, Bool.and_eq_true, decide_eq_true_eq] at hdigit
  rw [digitVal]; omega

/-- Each byte of a numeric window adds at most one decimal place to the coefficient. -/
theorem magStep_foldl_coeff_lt {ws : Bytes} (h : ∀ w ∈ ws, magClass w ≠ .other) (a : MagAcc) :
    (ws.foldl magStep a).coeff < (a.coeff + 1) * 10 ^ ws.length := by
  induction ws generalizing a with
  | nil => simp
  | cons w ws ih =>
    have hstep : (magStep a w).coeff + 1 ≤ (a.coeff + 1) * 10 := by
      by_cases hpoint : w = 0x2E#8
      · simp only [magStep, hpoint, if_true]; omega
      · have := digitVal_le_of_numeric (h w List.mem_cons_self) hpoint
        simp only [magStep, hpoint, if_false]; omega
    calc ((w :: ws).foldl magStep a).coeff
        < ((magStep a w).coeff + 1) * 10 ^ ws.length := ih (fun v hv => h v (List.mem_cons_of_mem w hv)) _
      _ ≤ (a.coeff + 1) * 10 * 10 ^ ws.length := Nat.mul_le_mul_right _ hstep
      _ = (a.coeff + 1) * 10 ^ (w :: ws).length := by rw [List.length_cons, pow_succ']; ring

theorem magDecode_bounds {ws : Bytes} {m : Dec} (h : magDecode ws = some m) :
    m.neg = false ∧ m.coeff < 10 ^ ws.length ∧ m.exp ≤ 0 := by
  unfold magDecode at h
  split at h <;> cases h
  rename_i hnum
  have hclass : ∀ w ∈ ws, magClass w ≠ .other := by
    simp only [magNumeric, Bool.and_eq_true, List.all_eq_true, bne_iff_ne] at hnum
    exact hnum.1
  exact ⟨rfl, by simpa using magStep_foldl_coeff_lt hclass ⟨0, 0, false⟩, by simp⟩

/-- The magnitude DECODE goes on with, under either policy: never negative, of at most five digits, the exponent at most 0. -/
theorem magnitude_bounds {p : MagPolicy} {fr : Frame} {m : Dec} (h : magnitude p (window fr) = some m) :
    m.neg = false ∧ m.coeff ≤ 99999 ∧ m.exp ≤ 0 := by
  cases hd : magDecode (window fr) with
  | some m' =>
    simp only [magnitude, hd, Option.some.injEq] at h
    obtain ⟨hneg, hcoeff, hexp⟩ := magDecode_bounds (h ▸ hd)
    have hlt : m.coeff < 10 ^ 5 := hcoeff
    exact ⟨hneg, by omega, hexp⟩
  | none =>
    cases p <;> simp only [magnitude, hd, reduceCtorEq, Option.some.injEq] at h
    subst h
    exact ⟨rfl, Nat.zero_le _, le_rfl⟩

/-- `wf_flag_count` (R86). -/
theorem flagCount_le_of_wf {c : Cfg} (h : cfgWf c = true) : c.flagCount ≤ 32 := by
  simp only [cfgWf, wfFlagCount, Bool.and_eq_true, decide_eq_true_eq] at h
  exact h.1.2

/-- `wf_readable_bound` (R86). -/
theorem readableBound_le_of_wf {c : Cfg} (h : cfgWf c = true) {mt : MeasType} (hmt : mt ∈ c.mt) {label : Bytes} {k : Int}
    (hl : (label, k) ∈ typeLabels mt) : readableBound c label.length k ≤ 65535 := by
  simp only [cfgWf, wfReadableBound, Bool.and_eq_true, List.all_eq_true, decide_eq_true_eq] at h
  exact h.2 mt hmt (label, k) hl

/-- What the lookup hands on is one of the labels R86 bounds. -/
theorem lookupRange_mem_typeLabels {mt : MeasType} {sub : BitVec 3} {look : Lookup}
    (h : lookupRange mt sub = some look) : (look.label, look.mexp) ∈ typeLabels mt := by
  unfold lookupRange at h
  split at h
  · cases h
    simp [typeLabels, *]
  · obtain ⟨e, he, rfl⟩ := Option.map_eq_some_iff.1 h
    simpa [typeLabels, *] using ⟨e, List.mem_of_getElem? he, rfl, rfl⟩

end Sys2Proof.Machine
end

