-- ==== Sys2Proof/Proofs/Safe.lean ====
section
/-! PROOF. The safe states (10_state.md R26 to R32): the commits a command can end in leave one, and nothing but the
registers and the flag table decides it. -/

namespace Sys2Proof.Machine

theorem targetCode_injective : Function.Injective targetCode := by
  rintro (_ | ⟨⟨⟩⟩) (_ | ⟨⟨⟩⟩) h <;> simp_all [targetCode]

theorem targetCode_le (q : Option Quantity) : (targetCode q).toNat ≤ 4 := by
  rcases q with _ | ⟨⟨⟩⟩ <;> decide

/-- A step waits or performs a command on the state whose stream has lost it. -/
theorem step_next {s t : State} (h : step s = .next t) :
    t = s ∨ ∃ i rest, exec i { s with input := rest } = .next t := by
  unfold step at h
  split at h
  · cases h; exact .inl rfl
  · cases h
  · exact .inr ⟨_, _, h⟩

/-- Registers and parameters decide whether a state is safe. -/
theorem Safe.of_sameRegisters {s t : State} (hs : Safe s) (hr : sameRegisters t s) (hp : t.params = s.params) :
    Safe t := by
  obtain ⟨⟩ := s
  obtain ⟨⟩ := t
  obtain ⟨rfl, rfl, rfl, rfl, rfl, rfl, rfl⟩ := hr
  obtain rfl := hp
  exact ⟨hs.legalStatus, hs.targetNamesTheLatch, hs.latchSign, hs.beforeDecode, hs.afterFailure, hs.flagsInTable,
    hs.anyflagAgrees⟩

/-- The power-on registers are safe under every configuration. -/
theorem safe_of_powerOn {s : State} (hl : ∀ q, s.latch q = none) (hr : s.readable = []) (hs : s.status = 0#16)
    (hf : s.flags = 0#32) : Safe s where
  legalStatus := by rw [hs]; decide
  targetNamesTheLatch q := by rw [hl, hs]; cases q <;> decide
  latchSign q d h := by simp [hl] at h
  beforeDecode _ := ⟨hs, hf, hr⟩
  afterFailure h := by rw [hs] at h; exact absurd rfl h
  flagsInTable k _ := by simp [hf]
  anyflagAgrees := by rw [hs, hf]; simp [statusAnyflag]

/-- Settles O31: the state after reset has the power-on registers. -/
theorem resetStateIsSafe : Obligations.ResetStateIsSafe := by
  obtain ⟨hl, hr, hs, hf⟩ := powerOnRegisters
  exact safe_of_powerOn hl hr hs hf

theorem safe_raiseError (e : DecodeError) (s : State) : Safe (raiseError e s.clearLatches) where
  legalStatus := by cases e <;> simp [errorStatus, errorCode]
  targetNamesTheLatch q := by cases q <;> simp [errorStatus, targetCode]
  latchSign q d h := by simp at h
  beforeDecode h := by simp [errorStatus] at h
  afterFailure _ := by simp [errorStatus]
  flagsInTable k _ := by simp
  anyflagAgrees := by simp [errorStatus]

/-- The sign of a reading is the flag scan's: a magnitude has none of its own. -/
theorem raw_neg_of_reading_ok {p : Params} {mt : MeasType} {fr : Frame} {rd : Reading}
    (h : reading p mt fr = .ok rd) : rd.raw.neg = rd.scan.neg := by
  obtain ⟨look, m, -, hm, rfl⟩ := reading_ok h
  simp [rawOf_eq, (magnitude_bounds hm).1]

/-- A latch holds a value after a committed reading exactly when the label's unit is one of the latch's. -/
theorem commitReading_latch_eq_some {c : BitVec 4} {sub : BitVec 3} {rd : Reading} {s : State} {q : Quantity} {d : Dec} :
    (commitReading c sub rd s.clearLatches).latch q = some d ↔
      ∃ k, unitClass rd.look.label = some (q, k) ∧ scale rd.raw k = d := by
  rw [commitReading_latch]
  rcases unitClass rd.look.label with - | ⟨r, k⟩ <;> simp

theorem safe_commitReading {c : BitVec 4} {fr : Frame} {mt : MeasType} {rd : Reading} {s : State}
    (hwf : cfgWf s.params.cfg = true) (h : reading s.params mt fr = .ok rd) :
    Safe (commitReading c fr.sub rd s.clearLatches) where
  legalStatus := by simp [successStatus, targetCode_le]
  targetNamesTheLatch q := by
    simp [Option.isSome_iff_exists, commitReading_latch_eq_some, successStatus, targetCode_injective.eq_iff]
  latchSign q d hq := by
    obtain ⟨k, -, rfl⟩ := commitReading_latch_eq_some.1 hq
    simp [successStatus, scale, raw_neg_of_reading_ok h]
  beforeDecode hdone := by simp [successStatus] at hdone
  afterFailure herr := by simp [successStatus] at herr
  flagsInTable k hk := by
    obtain ⟨look, m, -, -, rfl⟩ := reading_ok h
    exact flagScan_hits_past _ _ (by simpa [Cfg.flagCount] using hk)
  anyflagAgrees := by
    obtain ⟨look, m, -, -, rfl⟩ := reading_ok h
    rw [commitReading_status, successStatus, statusAnyflag_packStatus, commitReading_params, State.clearLatches_params]
    exact (BitVec.ofBool_eq_iff_eq (b' := true)).trans (flagScan_any_iff_hits _ _ (flagCount_le_of_wf hwf))

/-- Every command keeps the state safe. -/
theorem exec_keeps_safe {i : Instr} {s t : State} (hs : Safe s) (h : exec i s = .next t) : Safe t := by
  obtain ⟨hwf, ⟨-, e, rfl⟩ | ⟨c, fr, mt, rd, -, -, hrd, rfl⟩ | ⟨-, bs, rfl⟩ | ⟨-, rfl⟩ | ⟨-, rfl⟩⟩ := exec_next h
  · exact safe_raiseError e s
  · exact safe_commitReading hwf hrd
  · exact hs.of_sameRegisters (sameRegisters_respond s bs) rfl
  · exact hs.of_sameRegisters (sameRegisters_respond_countDraw s _) rfl
  · exact safe_of_powerOn (fun q => by simp) rfl rfl rfl

/-- Settles O32: a step that waits changes nothing, and a command's bytes leaving the stream change no register. -/
theorem stepKeepsSafe : Obligations.StepKeepsSafe := by
  intro s t hs h
  obtain rfl | ⟨i, rest, hexec⟩ := step_next h
  · exact hs
  · exact exec_keeps_safe (hs.of_sameRegisters (sameRegisters_of_latch (s.latch_setInput rest) rfl rfl rfl) rfl) hexec

end Sys2Proof.Machine
end

