-- ==== Sys2Proof/Proofs/ReadableBound.lean ====
section
/-! PROOF. The length of READABLE (41_decode.md R120, R121) against the bound of an admitted configuration
(40_tables.md R86). -/

namespace Sys2Proof.Machine

/-- A joined list is its strings and fewer commas than it has strings. -/
theorem join_length_le (tags : List Bytes) : (join tags).length ≤ (tags.map List.length).sum + tags.length := by
  induction tags using join.induct with
  | case1 => simp [join]
  | case2 t => simp [join]
  | case3 t u ts ih =>
    simp only [join, List.length_append, List.length_cons, List.map_cons, List.sum_cons] at ih ⊢
    omega

/-- The tags of a scan are among those of the display entries. -/
theorem flagScan_join_length_le (ft : List FlagBit) (fr : Frame) :
    (join (flagScan ft fr).tags).length ≤ displayTagBytes ft + ft.length := by
  have hsub : (ft.filter (fun fb => !isSign fb && fires fr fb)).Sublist (ft.filter (fun fb => !isSign fb)) :=
    List.monotone_filter_right ft (fun fb h => (Bool.and_eq_true_iff.1 h).1)
  have hbytes : ((flagScan ft fr).tags.map List.length).sum ≤ displayTagBytes ft := by
    rw [flagScan_tags, List.map_map]
    exact (hsub.map _).sum_le_sum (by simp)
  have hcount : (flagScan ft fr).tags.length ≤ ft.length := by
    rw [flagScan_tags, List.length_map]
    exact List.length_filter_le _ _
  have := join_length_le (flagScan ft fr).tags
  omega

/-- The integer part of a coefficient of at most five digits over an exponent of at most `k` has at most `5 + k` digits,
or one: where the coefficient has to be rounded, what is left of it is at most 1. -/
theorem fmt4Units_div_lt {d : Dec} {k : Int} (hcoeff : d.coeff ≤ 99999) (hexp : d.exp ≤ k) :
    fmt4Units d / 10000 < 10 ^ (max 1 (5 + k)).toNat := by
  apply Nat.div_lt_of_lt_mul
  simp only [fmt4Units]
  split
  · calc d.coeff * 10 ^ (-(-4 - d.exp)).toNat
        < 10 ^ 5 * 10 ^ (-(-4 - d.exp)).toNat := Nat.mul_lt_mul_of_pos_right (by omega) (by positivity)
      _ = 10 ^ (5 + (-(-4 - d.exp)).toNat) := (pow_add ..).symm
      _ ≤ 10 ^ (4 + (max 1 (5 + k)).toNat) := Nat.pow_le_pow_right (by decide) (by omega)
      _ = 10000 * 10 ^ (max 1 (5 + k)).toNat := pow_add ..
  · have hten : 10 ≤ 10 ^ (-4 - d.exp).toNat := Nat.le_self_pow (by omega) 10
    have hone : 10 ≤ 10 ^ (max 1 (5 + k)).toNat := Nat.le_self_pow (by omega) 10
    have hquot : d.coeff / 10 ^ (-4 - d.exp).toNat ≤ d.coeff / 10 := Nat.div_le_div_left hten (by decide)
    have hround : (if 10 ^ (-4 - d.exp).toNat ≤ 2 * (d.coeff % 10 ^ (-4 - d.exp).toNat) then 1 else 0) ≤ 1 := by
      split <;> decide
    omega

theorem fmt4_length_le {p : NegZero} {d : Dec} {k : Int} (hcoeff : d.coeff ≤ 99999) (hexp : d.exp ≤ k) :
    ((fmt4 p d).length : Int) ≤ 1 + max 1 (5 + k) + 5 := by
  obtain ⟨n, hn⟩ : ∃ n : Nat, max 1 (5 + k) = (n + 1 : Nat) := ⟨(max 1 (5 + k)).toNat - 1, by omega⟩
  have hint : (dec (fmt4Units d / 10000)).length ≤ n + 1 := dec_length_le (by
    simpa [hn] using fmt4Units_div_lt hcoeff hexp)
  have hfrac : (pad4 (fmt4Units d % 10000)).length = 4 := pad4_length (Nat.mod_lt _ (by decide))
  have hsign : (if fmt4Minus p d then ascii "-" else []).length ≤ 1 := by split <;> decide
  have hpoint : (ascii ".").length = 1 := rfl
  simp only [fmt4, List.length_append, hfrac, hpoint, hn]
  omega

/-- R121's string is within R86's bound for its label and multiplier. -/
theorem readableOf_length_le (p : NegZero) {raw : Dec} {k : Int} (label : Bytes) (cfg : Cfg) (fr : Frame)
    (hcoeff : raw.coeff ≤ 99999) (hexp : raw.exp ≤ k) :
    ((readableOf p raw label (flagScan cfg.ft fr)).length : Int) ≤ readableBound cfg label.length k := by
  have hnum := fmt4_length_le (p := p) hcoeff hexp
  have hjoin := flagScan_join_length_le cfg.ft fr
  have hspace : (ascii " ").length = 1 := rfl
  have htail : (if (flagScan cfg.ft fr).any then ascii " " ++ join (flagScan cfg.ft fr).tags else []).length ≤
      1 + (displayTagBytes cfg.ft + cfg.ft.length) := by
    split
    · rw [List.length_append, hspace]; omega
    · exact Nat.zero_le _
  simp only [readableOf, readableBound, Cfg.flagCount, List.length_append, hspace]
  omega

/-- The readable string of a reading under an admitted configuration fits 16 bits of length. -/
theorem reading_readable_length_le {p : Params} {mt : MeasType} {fr : Frame} {rd : Reading} (hwf : cfgWf p.cfg = true)
    (hmt : mt ∈ p.cfg.mt) (h : reading p mt fr = .ok rd) : rd.readable.length ≤ 65535 := by
  obtain ⟨look, m, hlook, hm, rfl⟩ := reading_ok h
  obtain ⟨-, hcoeff, hexp⟩ := magnitude_bounds hm
  have hlen := readableOf_length_le p.negZero (raw := rawOf m look.mexp (flagScan p.cfg.ft fr).neg) look.label p.cfg fr
    (by rw [rawOf_eq]; exact hcoeff) (k := look.mexp) (by rw [rawOf_eq]; dsimp only; omega)
  have hbound := readableBound_le_of_wf hwf hmt (lookupRange_mem_typeLabels hlook)
  exact_mod_cast hlen.trans hbound

theorem exec_readable_length_le {i : Instr} {s t : State} (hs : s.readable.length ≤ 65535) (h : exec i s = .next t) :
    t.readable.length ≤ 65535 := by
  obtain ⟨hwf, ⟨-, e, rfl⟩ | ⟨c, fr, mt, rd, -, hmt, hrd, rfl⟩ | ⟨-, bs, rfl⟩ | ⟨-, rfl⟩ | ⟨-, rfl⟩⟩ := exec_next h
  · exact Nat.zero_le _
  · exact reading_readable_length_le hwf (List.mem_of_getElem? hmt) hrd
  · exact hs
  · exact hs
  · exact Nat.zero_le _

/-- Settles O33: a reading's string is within R86's bound for its label; every other command writes no READABLE or the
empty one. -/
theorem readableStaysWithin65535 : Obligations.ReadableStaysWithin65535 := by
  intro s t hs h
  obtain rfl | ⟨i, rest, hexec⟩ := step_next h
  · exact hs
  · exact exec_readable_length_le (s := { s with input := rest }) hs hexec

end Sys2Proof.Machine
end

