-- ==== Sys2Proof/Proofs/Operations.lean ====
section
/-! PROOF. Every command is one of five shared operations (30_encoding.md R64, R71), and each of them completes under an
admitted configuration (20_memory.md R44; 60_exceptions.md R164, R167). -/

namespace Sys2Proof.Machine

/-- An instruction is a DECODE of a frame of valid layout, one of a frame too short, the read of a latch, the read of
registers or RESET. -/
theorem exec_operation (i : Instr) :
    (∃ c fr, ∀ s, exec i s = performFrame c fr s) ∨
    (∀ s, exec i s = performShort s) ∨
    (∃ q, ∀ s, exec i s = readLatch q s) ∨
    (∃ response : Bytes → BitVec 16 → BitVec 32 → Bytes,
      ∀ s, exec i s = readRegister (response s.readable s.status s.flags) s) ∨
    (∀ s, exec i s = execReset s) := by
  cases hf : frameOf i with
  | some p => exact .inl ⟨p.1, p.2, exec_of_frameOf hf⟩
  | none =>
    cases i with
    | decode f =>
      have hshort : parseFrame f = none := hf
      exact .inr (.inl fun s => by rw [exec, execDecode, hshort])
    | rdVoltage => exact .inr (.inr (.inl ⟨.voltage, fun _ => rfl⟩))
    | rdCurrent => exact .inr (.inr (.inl ⟨.current, fun _ => rfl⟩))
    | rdResistance => exact .inr (.inr (.inl ⟨.resistance, fun _ => rfl⟩))
    | rdFrequency => exact .inr (.inr (.inl ⟨.frequency, fun _ => rfl⟩))
    | rdReadable => exact .inr (.inr (.inr (.inl ⟨fun r _ _ => lenBytes r ++ r, fun _ => rfl⟩)))
    | rdStatus => exact .inr (.inr (.inr (.inl ⟨fun _ st _ => leBytes 2 st, fun _ => rfl⟩)))
    | rdFlags => exact .inr (.inr (.inr (.inl ⟨fun _ _ fl => leBytes 4 fl, fun _ => rfl⟩)))
    | reset => exact .inr (.inr (.inr (.inr fun _ => rfl)))
    | _ => cases hf

/-- `wf_mt_count` (R86). -/
theorem mt_length_of_wf {c : Cfg} (h : cfgWf c = true) : c.mt.length = 16 := by
  simp only [cfgWf, wfMtCount, Bool.and_eq_true, decide_eq_true_eq] at h
  obtain ⟨⟨⟨⟨⟨hcount, -⟩, -⟩, -⟩, -⟩, -⟩ := h
  exact hcount

/-- The lookup of a measurement type is total (40_tables.md R87). -/
theorem mt_getElem?_of_wf {c : Cfg} (h : cfgWf c = true) (code : BitVec 4) : ∃ mt, c.mt[code.toNat]? = some mt :=
  ⟨_, List.getElem?_eq_getElem (by rw [mt_length_of_wf h]; exact code.isLt)⟩

section admitted
variable {s : State} (hwf : cfgWf s.params.cfg = true)
include hwf

theorem performFrame_completes (c : BitVec 4) (fr : Frame) : ∃ t, performFrame c fr s = .next t := by
  obtain ⟨mt, hmt⟩ := mt_getElem?_of_wf hwf c
  rw [performFrame, whenAdmitted_of_wf _ hwf]
  simp only [hmt]
  cases reading s.params mt fr with
  | error e => exact ⟨_, rfl⟩
  | ok rd => exact ⟨_, rfl⟩

theorem readLatch_completes (q : Quantity) : ∃ t, readLatch q s = .next t := by
  rw [readLatch, whenAdmitted_of_wf _ hwf]
  cases s.latch q with
  | some d => exact ⟨_, rfl⟩
  | none => exact ⟨_, rfl⟩

end admitted

/-- Settles O28: of the five operations only the DECODE of a frame looks anything up that could be missing, and an
admitted table has an entry for every measurement code. -/
theorem everyCommandCompletes : Obligations.EveryCommandCompletes := by
  intro i s hwf
  rcases exec_operation i with ⟨c, fr, hexec⟩ | hexec | ⟨q, hexec⟩ | ⟨response, hexec⟩ | hexec <;> rw [hexec]
  · exact performFrame_completes hwf c fr
  · exact ⟨_, whenAdmitted_of_wf _ hwf⟩
  · exact readLatch_completes hwf q
  · exact ⟨_, whenAdmitted_of_wf _ hwf⟩
  · exact ⟨_, whenAdmitted_of_wf _ hwf⟩

end Sys2Proof.Machine
end

