-- ==== Sys2Proof/Proofs/Stream.lean ====
section
/-! PROOF. The host's stream (20_memory.md R44, R49): a step takes one command's bytes off its head, and no command sees
the bytes after its own. -/

namespace Sys2Proof.Machine

/-- The frame operand written for a frame is read as the function of its code. -/
theorem ofFrame_frameBytes (c : BitVec 4) (fr : Frame) : Instr.ofFrame (frameBytes c fr) = Instr.ofCode c fr := by
  rw [Instr.ofFrame, parseFrame_frameBytes]

/-- A frame operand too short for a frame is kept as it is. -/
theorem ofFrame_of_short {f : Bytes} (h : f.length < 12) : Instr.ofFrame f = .decode f := by
  rw [Instr.ofFrame, (parseFrame_none f).2 h]

/-- The bytes of a well-formed command are read as it (30_encoding.md R63, R64). -/
theorem decode_encode {i : Instr} (hw : i.wf = true) (rest : Bytes) : decode (encode i ++ rest) = .command i rest := by
  cases hf : frameOf i with
  | some p =>
    obtain ⟨henc, htrail, hi⟩ := encode_of_frameOf hf hw
    rw [henc, decode_encodeDecode (by rw [frameBytes_length]; omega), ofFrame_frameBytes, ← hi]
  | none =>
    cases i with
    | decode f =>
      have hshort : f.length < 12 := of_decide_eq_true hw
      rw [encode, decode_encodeDecode (by omega), ofFrame_of_short hshort]
    | rdVoltage | rdCurrent | rdResistance | rdFrequency | rdReadable | rdStatus | rdFlags | reset => rfl
    | _ => cases hf

theorem step_of_decode {s : State} {i : Instr} {rest : Bytes} (h : decode s.input = .command i rest) :
    step s = exec i { s with input := rest } := by
  rw [step, h]

theorem step_of_encode {s : State} {i : Instr} {rest : Bytes} (hw : i.wf = true) (h : s.input = encode i ++ rest) :
    step s = exec i { s with input := rest } :=
  step_of_decode (by rw [h, decode_encode hw])

/-- Settles O1: the bytes of a well-formed command are among those that decode. -/
theorem stepPerformsNextCommand : Obligations.StepPerformsNextCommand :=
  ⟨fun _ _ _ h => step_of_decode h, fun _ _ _ hw h => step_of_encode hw h⟩

/-- The outcome of a command with other bytes left in the host's stream. -/
def withInput (bs : Bytes) : Host.Outcome State Fault Refusal → Host.Outcome State Fault Refusal
  | .next t => .next { t with input := bs }
  | .fault r => .fault r
  | .refused r => .refused r

section setInput
variable (s : State) (bs : Bytes)

theorem whenAdmitted_setInput {k k' : Host.Outcome State Fault Refusal} (h : k' = withInput bs k) :
    whenAdmitted { s with input := bs } k' = withInput bs (whenAdmitted s k) := by
  cases hwf : cfgWf s.params.cfg with
  | true => rw [whenAdmitted_of_wf k hwf, ← h]; exact whenAdmitted_of_wf k' hwf
  | false => rw [whenAdmitted_of_not_wf k hwf]; exact whenAdmitted_of_not_wf k' hwf

theorem setLatch_setInput (q : Quantity) (v : Option Dec) :
    State.setLatch { s with input := bs } q v = { s.setLatch q v with input := bs } := by
  cases q <;> rfl

theorem commitReading_setInput (c : BitVec 4) (sub : BitVec 3) (rd : Reading) :
    commitReading c sub rd { s with input := bs } = { commitReading c sub rd s with input := bs } := by
  rw [commitReading, commitReading, commitLatch, commitLatch]
  cases unitClass rd.look.label with
  | none => rfl
  | some p => simp only [setLatch_setInput]; rfl

theorem performFrame_setInput (c : BitVec 4) (fr : Frame) :
    performFrame c fr { s with input := bs } = withInput bs (performFrame c fr s) := by
  apply whenAdmitted_setInput
  cases s.params.cfg.mt[c.toNat]? with
  | none => rfl
  | some mt =>
    dsimp only
    cases reading s.params mt fr with
    | error e => rfl
    | ok rd => exact congrArg Host.Outcome.next (commitReading_setInput s.clearLatches bs c fr.sub rd)

theorem readLatch_setInput (q : Quantity) :
    readLatch q { s with input := bs } = withInput bs (readLatch q s) := by
  apply whenAdmitted_setInput
  rw [State.latch_setInput]
  cases s.latch q <;> rfl

/-- No command sees the bytes after its own, and none takes or adds any (R49). -/
theorem exec_setInput (i : Instr) : exec i { s with input := bs } = withInput bs (exec i s) := by
  rcases exec_operation i with ⟨c, fr, hexec⟩ | hexec | ⟨q, hexec⟩ | ⟨response, hexec⟩ | hexec <;> rw [hexec, hexec]
  · exact performFrame_setInput s bs c fr
  · exact whenAdmitted_setInput s bs rfl
  · exact readLatch_setInput s bs q
  · exact whenAdmitted_setInput s bs rfl
  · exact whenAdmitted_setInput s bs rfl

end setInput

section run
variable {M : Host.Core} {s t : M.State} {r : M.Refusal}

theorem run_succ_of_next (h : M.step s = .next t) (k : Nat) : M.run (k + 1) s = M.run k t := by
  rw [Host.Core.run, h]

theorem run_succ_of_refused (h : M.step s = .refused r) (k : Nat) : M.run (k + 1) s = .refused r := by
  rw [Host.Core.run, h]

end run

/-- Settles O4, by induction on the commands: the first step performs the first command with the bytes of the others
still in the stream, which it does not see. -/
theorem streamRunsInIssueOrder : Obligations.StreamRunsInIssueOrder := by
  intro is rest s hw hin
  induction is generalizing s with
  | nil =>
    obtain rfl : s.input = rest := hin
    rfl
  | cons i is ih =>
    obtain ⟨hi, his⟩ := List.forall_mem_cons.1 hw
    have hstep : step s = withInput (streamBytes is ++ rest) (exec i s) := by
      rw [← exec_setInput]
      exact step_of_encode hi (by rw [hin, streamBytes, List.flatMap_cons, List.append_assoc, streamBytes])
    rw [List.length_cons, performAll, exec_setInput]
    cases hexec : exec i s with
    | next t =>
      rw [hexec] at hstep
      exact (run_succ_of_next hstep _).trans (ih { t with input := streamBytes is ++ rest } his rfl)
    | fault r => cases r
    | refused r =>
      rw [hexec] at hstep
      exact run_succ_of_refused hstep _

end Sys2Proof.Machine
end

