-- ==== Sys2Proof/Proofs/Encoding.lean ====
section
/-! PROOF. The command map of 30_encoding.md R64 in both directions, the bytes it reserves (R67), and what a step refuses
(R67; 40_tables.md R86). -/

namespace Sys2Proof.Machine

/-- Settles O5: a frame function is the DECODE of its frame's bytes, which parse back, and a shorter DECODE has no frame;
the one-byte commands are read by their byte. -/
theorem decodeInvertsEncode : Obligations.DecodeInvertsEncode :=
  fun _ rest hw => decode_encode hw rest

theorem decode_of_not_mem_commandBytes {c : Byte} (h : c ∉ commandBytes) (rest : Bytes) :
    decode (c :: rest) = .reserved c := by
  simp only [commandBytes, List.mem_cons, List.not_mem_nil, or_false, not_or] at h
  simp only [decode, h, if_false]

/-- All the command map does with a stream's first byte: it opens a DECODE, it is the whole encoding of a command, or it
is reserved. -/
theorem decode_cons_cases (c : Byte) (rest : Bytes) :
    (c = 0x01#8 ∧ decode (c :: rest) = decodeOperands rest) ∨
    (∃ i, i.wf = true ∧ encode i = [c] ∧ decode (c :: rest) = .command i rest) ∨
    (c ∉ commandBytes ∧ decode (c :: rest) = .reserved c) := by
  by_cases hmem : c ∈ commandBytes
  · simp only [commandBytes, List.mem_cons, List.not_mem_nil, or_false] at hmem
    rcases hmem with rfl | rfl | rfl | rfl | rfl | rfl | rfl | rfl | rfl
    · exact .inl ⟨rfl, rfl⟩
    · exact .inr (.inl ⟨.rdVoltage, rfl, rfl, rfl⟩)
    · exact .inr (.inl ⟨.rdCurrent, rfl, rfl, rfl⟩)
    · exact .inr (.inl ⟨.rdResistance, rfl, rfl, rfl⟩)
    · exact .inr (.inl ⟨.rdFrequency, rfl, rfl, rfl⟩)
    · exact .inr (.inl ⟨.rdReadable, rfl, rfl, rfl⟩)
    · exact .inr (.inl ⟨.rdStatus, rfl, rfl, rfl⟩)
    · exact .inr (.inl ⟨.rdFlags, rfl, rfl, rfl⟩)
    · exact .inr (.inl ⟨.reset, rfl, rfl, rfl⟩)
  · exact .inr (.inr ⟨hmem, decode_of_not_mem_commandBytes hmem rest⟩)

/-- The operands of a DECODE are a length byte and as many frame bytes, or they are not all there (R63). -/
theorem decodeOperands_cases (bs : Bytes) :
    decodeOperands bs = .incomplete ∨
    ∃ f rest, f.length ≤ 255 ∧ bs = BitVec.ofNat 8 f.length :: (f ++ rest) ∧
      decodeOperands bs = .command (.ofFrame f) rest := by
  cases bs with
  | nil => exact .inl rfl
  | cons l body =>
    by_cases hshort : body.length < l.toNat
    · exact .inl (if_pos hshort)
    · have hlen : (body.take l.toNat).length = l.toNat := by rw [List.length_take]; omega
      refine .inr ⟨body.take l.toNat, body.drop l.toNat, ?_, ?_, if_neg hshort⟩
      · have := l.isLt; omega
      · rw [hlen, List.take_append_drop, BitVec.ofNat_toNat, BitVec.setWidth_eq]

/-- Settles O6, by the two lemmas on what the command map and the operands of a DECODE can be. -/
theorem encodeInvertsDecode : Obligations.EncodeInvertsDecode := by
  intro bs i rest h
  cases bs with
  | nil => cases h
  | cons c bs =>
    obtain ⟨rfl, hd⟩ | ⟨j, hw, henc, hd⟩ | ⟨-, hd⟩ := decode_cons_cases c bs <;> rw [hd] at h
    · obtain hd | ⟨f, tail, hlen, rfl, hd⟩ := decodeOperands_cases bs <;> rw [hd] at h <;> cases h
      obtain ⟨hw, henc⟩ := wf_ofFrame hlen
      exact ⟨hw, by rw [henc]; rfl⟩
    · cases h
      exact ⟨hw, by rw [henc]; rfl⟩
    · cases h

/-- Settles O7: each word is evaluated. -/
theorem specWordsDecode : Obligations.SpecWordsDecode :=
  ⟨rfl, rfl, rfl, rfl, rfl, rfl, rfl, rfl, rfl, rfl⟩

theorem decode_eq_reserved {bs : Bytes} {c : Byte} (h : decode bs = .reserved c) :
    ∃ rest, bs = c :: rest ∧ c ∉ commandBytes := by
  cases bs with
  | nil => cases h
  | cons b bs =>
    obtain ⟨-, hd⟩ | ⟨i, -, -, hd⟩ | ⟨hc, hd⟩ := decode_cons_cases b bs <;> rw [hd] at h
    · obtain hd | ⟨f, rest, -, -, hd⟩ := decodeOperands_cases bs <;> rw [hd] at h <;> cases h
    · cases h
    · cases h
      exact ⟨bs, rfl, hc⟩

theorem exec_of_not_wf (i : Instr) {s : State} (hwf : cfgWf s.params.cfg = false) :
    exec i s = .refused .cfgNotAdmitted := by
  rcases exec_operation i with ⟨c, fr, hexec⟩ | hexec | ⟨q, hexec⟩ | ⟨response, hexec⟩ | hexec <;> rw [hexec] <;>
    exact whenAdmitted_of_not_wf _ hwf

theorem exec_refused {i : Instr} {s : State} {r : Refusal} (h : exec i s = .refused r) :
    r = .cfgNotAdmitted ∧ cfgWf s.params.cfg = false := by
  cases hwf : cfgWf s.params.cfg with
  | true =>
    obtain ⟨t, ht⟩ := everyCommandCompletes i s hwf
    cases h.symm.trans ht
  | false =>
    cases h.symm.trans (exec_of_not_wf i hwf)
    exact ⟨rfl, rfl⟩

/-- Settles O29: a step waits, meets a reserved byte or performs a command, and a command is refused only without an
admitted configuration. -/
theorem stepRefusesOnlyReservedOrUnadmitted : Obligations.StepRefusesOnlyReservedOrUnadmitted := by
  intro s r h
  cases hd : decode s.input with
  | incomplete => rw [step, hd] at h; cases h
  | reserved c =>
    rw [step, hd] at h
    cases h
    obtain ⟨rest, hin, hc⟩ := decode_eq_reserved hd
    exact .inr ⟨c, rest, rfl, hin, hc⟩
  | command i rest => exact .inl (exec_refused (s := { s with input := rest }) ((step_of_decode hd).symm.trans h))

/-- The byte ranges R67 reserves hold no command byte. -/
theorem not_mem_commandBytes_of_reserved {c : Byte}
    (h : c.toNat = 0 ∨ (0x02 ≤ c.toNat ∧ c.toNat ≤ 0x0F) ∨ (0x14 ≤ c.toNat ∧ c.toNat ≤ 0x1F) ∨
      (0x23 ≤ c.toNat ∧ c.toNat ≤ 0xFE)) : c ∉ commandBytes := by
  intro hmem
  simp only [commandBytes, List.mem_cons, List.not_mem_nil, or_false] at hmem
  rcases hmem with rfl | rfl | rfl | rfl | rfl | rfl | rfl | rfl | rfl <;> simp at h

/-- Under an admitted configuration the command at the head of the stream completes; its bytes are gone and the
configuration stays. -/
theorem step_of_encode_completes {s : State} {i : Instr} {rest : Bytes} (hwf : cfgWf s.params.cfg = true)
    (hw : i.wf = true) (hin : s.input = encode i ++ rest) :
    ∃ t, step s = .next t ∧ t.params = s.params ∧ t.input = rest := by
  obtain ⟨t, ht⟩ := everyCommandCompletes i { s with input := rest } hwf
  obtain ⟨hparams, hinput, -⟩ := noCommandWritesTheConfiguration _ _ _ ht
  exact ⟨t, (step_of_encode hw hin).trans ht, hparams, hinput⟩

/-- Settles O3, by induction on the commands before the reserved byte: each completes and leaves the byte in the stream. -/
theorem reservedByteRefusesTheStream : Obligations.ReservedByteRefusesTheStream := by
  intro is c rest s n hw hwf hc hin
  induction is generalizing s with
  | nil =>
    have hdecode : decode s.input = .reserved c := by
      rw [hin]; exact decode_of_not_mem_commandBytes (not_mem_commandBytes_of_reserved hc) rest
    have hstep : step s = .refused (.reservedCommand c) := by rw [step, hdecode]
    rw [List.length_nil, Nat.zero_add, Nat.add_comm]
    exact run_succ_of_refused hstep n
  | cons i is ih =>
    obtain ⟨hi, his⟩ := List.forall_mem_cons.1 hw
    rw [streamBytes, List.flatMap_cons, List.append_assoc] at hin
    obtain ⟨t, hstep, hparams, hinput⟩ := step_of_encode_completes hwf hi hin
    rw [List.length_cons, Nat.add_right_comm is.length, Nat.add_right_comm]
    exact (run_succ_of_next hstep _).trans (ih t his (by rw [hparams, hwf]) hinput)

end Sys2Proof.Machine
end

