-- ==== Sys2Proof/Proofs/FrameFields.lean ====
section
/-! PROOF. The fields of a frame are masks of its bytes (30_encoding.md R60 to R62), byte 6 selects the frame function
(R71), and a DECODE reads no other bit of the frame (R69). -/

namespace Sys2Proof.Machine

theorem joinByte0_and_mask (u : BitVec 5) (sub : BitVec 3) : joinByte0 u sub &&& 0x07#8 = sub.setWidth 8 := by
  revert u sub; decide

theorem joinByte6_and_mask (u mcode : BitVec 4) : joinByte6 u mcode &&& 0x0F#8 = mcode.setWidth 8 := by
  revert u mcode; decide

/-- Settles O8: the bytes are those the parsed frame is written back to. -/
theorem frameFieldsAreMasksOfBytes : Obligations.FrameFieldsAreMasksOfBytes := by
  refine ⟨parseFrame_isSome, fun f c fr hparse => ?_⟩
  obtain rfl := frameBytes_of_parse hparse
  exact ⟨⟨_, rfl, (joinByte0_and_mask fr.u0 fr.sub).symm⟩, ⟨_, rfl, (joinByte6_and_mask fr.u6 c).symm⟩, rfl, rfl⟩

theorem exec_decode_of_parse {f : Bytes} {c : BitVec 4} {fr : Frame} (h : parseFrame f = some (c, fr)) (s : State) :
    exec (.decode f) s = performFrame c fr s :=
  exec_of_frameOf (i := .decode f) h s

/-- Settles O10: a `decode` and the frame function of its code are one operation on one frame. -/
theorem byteSixSelectsTheFunction : Obligations.ByteSixSelectsTheFunction :=
  ⟨fun _ c fr s h => (exec_decode_of_parse h s).trans (exec_of_frameOf (frameOf_ofCode c fr) s).symm, fun _ => rfl⟩

/-- A frame operand of at least 12 bytes is the bytes of a frame. -/
theorem exists_frameBytes {f : Bytes} (h : 12 ≤ f.length) : ∃ c fr, f = frameBytes c fr := by
  obtain ⟨⟨c, fr⟩, hparse⟩ := Option.isSome_iff_exists.1 ((parseFrame_isSome f).2 h)
  exact ⟨c, fr, (frameBytes_of_parse hparse).symm⟩

theorem eq_of_setWidth_eq {n m : Nat} (hnm : n ≤ m) {x y : BitVec n} (h : x.setWidth m = y.setWidth m) : x = y := by
  have := congrArg (BitVec.setWidth n) h
  simpa [BitVec.setWidth_setWidth_of_le, hnm] using this

/-- The status byte of an offset is the frame's byte at it, or the offset is none of 7 to 11 (40_tables.md R84). -/
theorem statByte_cases (off : Nat) :
    (∀ fr, statByte fr off = none) ∨ ∀ c fr, statByte fr off = (frameBytes c fr)[off]? := by
  unfold statByte
  split
  case h_6 => exact .inl fun _ => rfl
  all_goals exact .inr fun _ _ => rfl

theorem fires_eq (fr : Frame) (fb : FlagBit) :
    fires fr fb = ((statByte fr fb.off).map (· &&& fb.mask)).any (· != 0#8) := by
  rw [fires]
  cases statByte fr fb.off <;> rfl

section agreement
variable {c c' : BitVec 4} {fr gr : Frame}

theorem fires_eq_of_masked_byte_eq {fb : FlagBit}
    (h : (frameBytes c fr)[fb.off]?.map (· &&& fb.mask) = (frameBytes c' gr)[fb.off]?.map (· &&& fb.mask)) :
    fires fr fb = fires gr fb := by
  obtain hnone | hbyte := statByte_cases fb.off
  · rw [fires_eq, fires_eq, hnone, hnone]
  · rw [fires_eq, fires_eq, hbyte c, hbyte c', h]

/-- A DECODE reads of a frame its sub-range, its magnitude window and the flag entries that fire. -/
theorem performFrame_congr {s : State} (hsub : fr.sub = gr.sub) (hwin : window fr = window gr)
    (hfires : ∀ fb ∈ s.params.cfg.ft, fires fr fb = fires gr fb) (c : BitVec 4) :
    performFrame c fr s = performFrame c gr s := by
  have hscan : flagScan s.params.cfg.ft fr = flagScan s.params.cfg.ft gr := flagScanFrom_congr hfires 0
  have hread (mt : MeasType) : reading s.params mt fr = reading s.params mt gr := by
    rw [reading, reading, hsub, hwin, hscan]
  simp only [performFrame, hread, hsub]

end agreement

/-- Settles O9: what the two frames agree in is their measurement code and all that a DECODE reads of a frame. -/
theorem ignoredBitsHaveNoEffect : Obligations.IgnoredBitsHaveNoEffect := by
  intro f g s hf hg hbyte0 hbyte6 hwin hmasked
  obtain ⟨c, fr, rfl⟩ := exists_frameBytes hf
  obtain ⟨c', gr, rfl⟩ := exists_frameBytes hg
  have hsub : fr.sub = gr.sub := by
    have h : joinByte0 fr.u0 fr.sub &&& 0x07#8 = joinByte0 gr.u0 gr.sub &&& 0x07#8 := Option.some.inj hbyte0
    rw [joinByte0_and_mask, joinByte0_and_mask] at h
    exact eq_of_setWidth_eq (by decide) h
  have hcode : c = c' := by
    have h : joinByte6 fr.u6 c &&& 0x0F#8 = joinByte6 gr.u6 c' &&& 0x0F#8 := Option.some.inj hbyte6
    rw [joinByte6_and_mask, joinByte6_and_mask] at h
    exact eq_of_setWidth_eq (by decide) h
  subst hcode
  rw [exec_decode_of_parse (parseFrame_frameBytes c fr), exec_decode_of_parse (parseFrame_frameBytes c gr)]
  exact performFrame_congr hsub hwin (fun fb hfb => fires_eq_of_masked_byte_eq (hmasked fb hfb)) c

end Sys2Proof.Machine
end

