-- ==== Sys2Proof/Proofs/TextualSyntax.lean ====
section
/-! PROOF. The line of a command is read as the command (30_encoding.md R72; assumption 17): the words of a DECODE's line
are the mnemonic, the brackets and two digits for each frame byte. -/

namespace Sys2Proof.Machine

/-- A character that stands inside a word: no blank, no bracket. -/
def isWordChar (c : Char) : Bool := !isBlank c && !(c == '[' || c == ']')

theorem lineWords_wordChar {c : Char} (h : isWordChar c = true) (cur cs : List Char) :
    lineWords cur (c :: cs) = lineWords (cur ++ [c]) cs := by
  simp only [isWordChar, Bool.and_eq_true, Bool.not_eq_true'] at h
  obtain ⟨hblank, hbracket⟩ := h
  simp only [lineWords, hblank, hbracket, Bool.false_eq_true, if_false]

theorem lineWords_space (cur cs : List Char) : lineWords cur (' ' :: cs) = flushWord cur ++ lineWords [] cs := rfl

theorem lineWords_close (cur cs : List Char) : lineWords cur (']' :: cs) = flushWord cur ++ [']'] :: lineWords [] cs := rfl

theorem isWordChar_hexChar (n : BitVec 4) : isWordChar (hexChar n) = true := by
  revert n; decide

theorem semicolon_ne_hexChar (n : BitVec 4) : ';' ≠ hexChar n := by
  revert n; decide

/-- A byte's two digits are gathered into the word that has begun. -/
theorem lineWords_hexText (b : Byte) (cs : List Char) : lineWords [] (hexText b ++ cs) = lineWords (hexText b) cs := by
  rw [hexText, List.cons_append, List.cons_append, List.nil_append, lineWords_wordChar (isWordChar_hexChar _),
    lineWords_wordChar (isWordChar_hexChar _)]
  rfl

/-- The frame bytes of a line, separated by single spaces. -/
def hexBody (f : Bytes) : List Char := ((f.map hexText).intersperse [' ']).flatten

theorem decodeText_eq (f : Bytes) : decodeText f = "DECODE [".toList ++ hexBody f ++ [']'] := rfl

theorem hexBody_cons_cons (b c : Byte) (f : Bytes) : hexBody (b :: c :: f) = hexText b ++ ' ' :: hexBody (c :: f) := rfl

theorem hexBody_singleton (b : Byte) : hexBody [b] = hexText b := rfl

/-- Each frame byte is a word, and so is the bracket that closes the list. -/
theorem lineWords_hexBody (f : Bytes) : lineWords [] (hexBody f ++ [']']) = f.map hexText ++ [[']']] := by
  induction f with
  | nil => rfl
  | cons b f ih =>
    cases f with
    | nil => rw [hexBody_singleton, lineWords_hexText, lineWords_close]; rfl
    | cons c f =>
      rw [hexBody_cons_cons, List.append_assoc, lineWords_hexText, List.cons_append, lineWords_space, ih]
      rfl

theorem lineWords_decodeText (f : Bytes) :
    lineWords [] (decodeText f) = "DECODE".toList :: ['['] :: (f.map hexText ++ [[']']]) := by
  rw [← lineWords_hexBody]
  rfl

theorem semicolon_not_mem_hexBody (f : Bytes) : ';' ∉ hexBody f := by
  have hdigits (b : Byte) : ';' ∉ hexText b := by simp [hexText, semicolon_ne_hexChar]
  induction f with
  | nil => exact List.not_mem_nil
  | cons b f ih =>
    cases f with
    | nil => rw [hexBody_singleton]; exact hdigits b
    | cons c f => rw [hexBody_cons_cons]; simp [hdigits, ih]

theorem stripComment_of_not_mem {line : List Char} (h : ';' ∉ line) : stripComment line = line := by
  rw [stripComment, List.takeWhile_eq_self_iff]
  intro ch hch
  exact bne_iff_ne.2 (ne_of_mem_of_not_mem hch h)

/-- No comment starts in the line of a DECODE. -/
theorem stripComment_decodeText (f : Bytes) : stripComment (decodeText f) = decodeText f := by
  apply stripComment_of_not_mem
  simp [decodeText_eq, semicolon_not_mem_hexBody]

/-- The bracketed list of a frame's bytes is read as the frame. -/
theorem hexList_map_hexText (f : Bytes) : hexList (f.map hexText ++ [[']']]) = some f := by
  induction f with
  | nil => rfl
  | cons b f ih =>
    have hopen : hexText b ≠ [']'] := fun h => by cases congrArg List.length h
    rw [List.map_cons, List.cons_append, hexList, if_neg hopen, hexByte_hexText, ih]

/-- The line of a DECODE is read as the instruction of its frame operand. -/
theorem parseLine_decodeText {f : Bytes} (h : f.length ≤ 255) :
    parseLine (decodeText f) = some (some (.command (.ofFrame f))) := by
  have hbody : (decodeText f).dropWhile isBlank = decodeText f := rfl
  have hdecodes : ("DECODES".toList.isPrefixOf (decodeText f)) = false := rfl
  rw [parseLine, hbody, hdecodes, stripComment_decodeText, lineWords_decodeText, parseWords, hexList_map_hexText,
    Option.bind_some, frameOperand, if_pos h]
  rfl

/-- The line of a well-formed command is read as that command: a frame function and a short DECODE by their frame
operand, the others by their mnemonic. -/
theorem parseLine_lineText {i : Instr} (hw : i.wf = true) : parseLine (lineText i) = some (some (.command i)) := by
  cases hf : frameOf i with
  | some p =>
    obtain ⟨-, htrail, hi⟩ := encode_of_frameOf hf hw
    rw [hi, lineText_ofCode, parseLine_decodeText (by rw [frameBytes_length]; omega), ofFrame_frameBytes]
  | none =>
    cases i with
    | decode f =>
      have hshort : f.length < 12 := of_decide_eq_true hw
      rw [lineText_decode, parseLine_decodeText (by omega), ofFrame_of_short hshort]
    | rdVoltage | rdCurrent | rdResistance | rdFrequency | rdReadable | rdStatus | rdFlags | reset => decide
    | _ => cases hf

/-- Settles O50: the lines by `parseLine_lineText`, the expansions by definition, the bytes of a DECODE by those of its
frame operand. -/
theorem textualSyntaxAndExpansions : Obligations.TextualSyntaxAndExpansions :=
  ⟨fun _ hw => parseLine_lineText hw, rfl, fun _ => rfl, fun _ => rfl, fun _ h => (wf_ofFrame h).2⟩

end Sys2Proof.Machine
end

