-- ==== Sys2Proof/Proofs/Configuration.lean ====
section
/-! PROOF. The admission checks on a configuration (40_tables.md R86): what fails them has no step, what passes them has
an entry for every measurement code (R87), and the reference configuration passes them (R90). -/

namespace Sys2Proof.Machine

/-- Settles O27: each of the five operations an instruction can be begins with the check. -/
theorem unadmittedConfigurationHasNoStep : Obligations.UnadmittedConfigurationHasNoStep :=
  fun i _ hwf => exec_of_not_wf i hwf

/-- Settles O34: an admitted table has 16 entries, one for each value of a 4-bit code. -/
theorem measurementLookupIsTotal : Obligations.MeasurementLookupIsTotal :=
  fun _ code hwf => mt_getElem?_of_wf hwf code

/-- Settles O36: the checks and the settled facts are evaluated on the tables of R91 to R93. -/
theorem referenceConfigurationIsAdmitted : Obligations.ReferenceConfigurationIsAdmitted :=
  ⟨by decide, by decide⟩

end Sys2Proof.Machine
end

