-- ==== Sys2Proof/Proofs/MagnitudeWindow.lean ====
section
/-! PROOF. The magnitude window (41_decode.md R106 to R109): which windows are numeric and the value of one, by recursion
on its last byte; what DECODE goes on with otherwise. -/

namespace Sys2Proof.Machine

theorem isDigit_iff (w : Byte) : isDigit w = true ↔ 0x30 ≤ w.toNat ∧ w.toNat ≤ 0x39 := by simp [isDigit]

theorem isDigit_point : isDigit 0x2E#8 = false := by decide

theorem ne_point_of_isDigit {w : Byte} (h : isDigit w = true) : w ≠ 0x2E#8 := by
  rintro rfl
  simp [isDigit_point] at h

theorem magClass_ne_other_iff (w : Byte) : magClass w ≠ .other ↔ isDigit w = true ∨ w = 0x2E#8 := by
  unfold magClass
  split_ifs <;> simp [*]

theorem magClass_eq_point_iff (w : Byte) : magClass w = .point ↔ w = 0x2E#8 := by
  unfold magClass
  split_ifs with hd hp
  · simp [ne_point_of_isDigit hd]
  · simp [hp]
  · simp [hp]

/-- R107 over digits and points. -/
theorem magNumeric_iff (ws : Bytes) :
    magNumeric ws = true ↔ (∀ w ∈ ws, isDigit w = true ∨ w = 0x2E#8) ∧ ws.count 0x2E#8 ≤ 1 := by
  have hcount : (ws.filter (fun w => magClass w == .point)).length = ws.count 0x2E#8 := by
    rw [← List.countP_eq_length_filter]
    exact List.countP_congr fun w _ => by simp [magClass_eq_point_iff]
  simp [magNumeric, hcount, magClass_ne_other_iff]

theorem magDecode_of_numeric {ws : Bytes} (h : magNumeric ws = true) :
    magDecode ws =
      some ⟨false, (ws.foldl magStep ⟨0, 0, false⟩).coeff, -((ws.foldl magStep ⟨0, 0, false⟩).after : Int)⟩ := if_pos h

theorem magDecode_isSome (ws : Bytes) : (magDecode ws).isSome = true ↔ magNumeric ws = true := by
  unfold magDecode
  split_ifs with h <;> simp [h]

/-- Every byte of a numeric window but its point is a digit. -/
theorem length_le_digits_of_numeric {ws : Bytes} (h : magNumeric ws = true) :
    ws.length ≤ (ws.filter isDigit).length + 1 := by
  obtain ⟨hclass, hcount⟩ := (magNumeric_iff ws).1 h
  have hrest : ws.countP (fun w => ¬isDigit w = true) ≤ ws.count 0x2E#8 :=
    List.countP_mono_left fun w hw hnot => by simpa [of_decide_eq_true hnot] using hclass w hw
  have hsplit := List.length_eq_countP_add_countP isDigit (l := ws)
  rw [← List.countP_eq_length_filter]
  omega

/-- Settles O37: the classes as byte ranges; of the five bytes at most one is no digit. -/
theorem numericWindows : Obligations.NumericWindows := by
  intro fr
  simp only [magDecode_isSome]
  refine ⟨?_, fun h => ?_⟩
  · rw [magNumeric_iff]
    simp only [isDigit_iff]
  · have hlen := length_le_digits_of_numeric h
    have hfive : (window fr).length = 5 := rfl
    omega

/-- One round of R108's loop on a digit. -/
theorem magStep_of_isDigit (a : MagAcc) {w : Byte} (h : isDigit w = true) :
    magStep a w = ⟨10 * a.coeff + digitVal w, if a.seen then a.after + 1 else a.after, a.seen⟩ :=
  if_neg (ne_point_of_isDigit h)

/-- R108's loop before the point. -/
theorem foldl_magStep_digits {ws : Bytes} (h : ∀ w ∈ ws, isDigit w = true) :
    ws.foldl magStep ⟨0, 0, false⟩ = ⟨digitsValue ws, 0, false⟩ := by
  induction ws using List.reverseRecOn with
  | nil => rfl
  | append_singleton ws w ih =>
    obtain ⟨hws, hw⟩ := List.forall_mem_append.1 h
    rw [List.foldl_append, ih hws, List.foldl_cons, List.foldl_nil, magStep_of_isDigit _ (hw w List.mem_cons_self),
      digitsValue_append_digit]
    rfl

/-- R108's loop over the point: the digits after it go on with the number and are counted. -/
theorem foldl_magStep_point {before after : Bytes} (h : ∀ w ∈ before ++ after, isDigit w = true) :
    (before ++ 0x2E#8 :: after).foldl magStep ⟨0, 0, false⟩ = ⟨digitsValue (before ++ after), after.length, true⟩ := by
  induction after using List.reverseRecOn with
  | nil =>
    rw [List.append_nil] at h ⊢
    rw [List.foldl_append, foldl_magStep_digits h]
    rfl
  | append_singleton after w ih =>
    rw [← List.append_assoc] at h ⊢
    obtain ⟨hws, hw⟩ := List.forall_mem_append.1 h
    rw [← List.cons_append, ← List.append_assoc, List.foldl_append, ih hws, List.foldl_cons, List.foldl_nil,
      magStep_of_isDigit _ (hw w List.mem_cons_self), digitsValue_append_digit, List.length_append]
    rfl

theorem count_point_of_digits {ws : Bytes} (h : ∀ w ∈ ws, isDigit w = true) : ws.count 0x2E#8 = 0 :=
  List.count_eq_zero.2 fun hmem => ne_point_of_isDigit (h _ hmem) rfl

theorem magDecode_of_digits {ws : Bytes} (h : ∀ w ∈ ws, isDigit w = true) :
    magDecode ws = some ⟨false, digitsValue ws, 0⟩ := by
  have hnum : magNumeric ws = true :=
    (magNumeric_iff ws).2 ⟨fun w hw => .inl (h w hw), by rw [count_point_of_digits h]; exact Nat.zero_le 1⟩
  rw [magDecode_of_numeric hnum, foldl_magStep_digits h]
  rfl

theorem magDecode_of_point {before after : Bytes} (h : ∀ w ∈ before ++ after, isDigit w = true) :
    magDecode (before ++ 0x2E#8 :: after) = some ⟨false, digitsValue (before ++ after), -(after.length : Int)⟩ := by
  have hperm : (before ++ 0x2E#8 :: after).Perm (0x2E#8 :: (before ++ after)) := List.perm_middle
  have hnum : magNumeric (before ++ 0x2E#8 :: after) = true := by
    refine (magNumeric_iff _).2 ⟨fun w hw => ?_, ?_⟩
    · obtain rfl | hw := List.mem_cons.1 (hperm.mem_iff.1 hw)
      · exact .inr rfl
      · exact .inl (h w hw)
    · rw [hperm.count_eq, List.count_cons_self, count_point_of_digits h]
  rw [magDecode_of_numeric hnum, foldl_magStep_point h]

/-- Settles O38: the loop of R108 without and with a point; five digits are below `10^5`. -/
theorem windowValue : Obligations.WindowValue := by
  refine ⟨fun fr h => magDecode_of_digits h, fun fr before after hw h => ?_, fun fr m h => ?_⟩
  · rw [hw]
    exact magDecode_of_point h
  · obtain ⟨hneg, hcoeff, -⟩ := magDecode_bounds h
    have hlt : m.coeff < 10 ^ 5 := hcoeff
    exact ⟨hneg, by omega⟩

theorem magnitude_of_numeric {p : MagPolicy} {ws : Bytes} {m : Dec} (h : magDecode ws = some m) :
    magnitude p ws = some m := by
  simp only [magnitude, h]

/-- R109: what DECODE goes on with after a window that is not numeric. -/
theorem magnitude_of_nonNumeric {ws : Bytes} (h : magDecode ws = none) :
    magnitude .error ws = none ∧ magnitude .zero ws = some ⟨false, 0, 0⟩ := by
  simp only [magnitude, h, and_self]

end Sys2Proof.Machine
end

