-- ==== Sys2Proof/Proofs/FlagTable.lean ====
section
/-! PROOF. The statements about the flag table (41_decode.md R111 to R114): when an entry fires, and what the firing
entries add up to. -/

namespace Sys2Proof.Machine

/-- The offsets a flag entry may name hold status bytes (40_tables.md R84). -/
theorem statByte_of_status_offset (c : BitVec 4) (fr : Frame) {off : Nat} (hlo : 7 ≤ off) (hhi : off ≤ 11) :
    statByte fr off = (frameBytes c fr)[off]? := by
  interval_cases off <;> rfl

/-- Settles O39: the status byte of the entry's offset is the frame's byte there. -/
theorem entryFiresOnItsBit : Obligations.EntryFiresOnItsBit := by
  intro c fr fb hlo hhi
  rw [fires_eq, statByte_of_status_offset c fr hlo hhi]
  simp [Option.any_eq_true]

/-- Settles O40: in a table of at most 32 entries no entry's number is past the word. -/
theorem hitsHasOneBitPerEntry : Obligations.HitsHasOneBitPerEntry := by
  intro ft fr k hlen
  rw [flagScan_hits, and_iff_right_of_imp]
  rintro ⟨fb, hfb, -⟩
  exact (List.getElem?_eq_some_iff.1 hfb).1.trans_le hlen

/-- `neg` is the parity of the sign entries that fire. -/
theorem flagScanFrom_neg (fr : Frame) (i : Nat) (ft : List FlagBit) :
    (flagScanFrom fr i ft).neg = true ↔ (ft.filter (fun fb => isSign fb && fires fr fb)).length % 2 = 1 := by
  induction ft generalizing i with
  | nil => simp
  | cons fb ft ih =>
    cases hf : fires fr fb with
    | false => simp [flagScanFrom_cons_quiet _ _ _ _ hf, ih, hf]
    | true =>
      rw [flagScanFrom_cons_fires _ _ _ _ hf]
      cases hs : isSign fb with
      | false => simp [ih, hs]
      | true =>
        have hflip : (flagScanFrom fr (i + 1) ft).neg = false ↔
            ¬(ft.filter (fun fb => isSign fb && fires fr fb)).length % 2 = 1 := by
          rw [← ih, Bool.not_eq_true]
        simp only [if_true, Bool.not_eq_true', hflip, List.filter_cons, hs, hf, Bool.and_self, List.length_cons]
        omega

/-- Only display entries give tags, and theirs is not the sign's (40_tables.md R85). -/
theorem sign_not_mem_flagScan_tags (ft : List FlagBit) (fr : Frame) : ascii "-" ∉ (flagScan ft fr).tags := by
  rw [flagScan_tags, List.mem_map]
  rintro ⟨fb, hfb, htag⟩
  have hdisplay := (List.mem_filter.1 hfb).2
  simp [isSign, htag] at hdisplay

/-- Settles O41: the parity along the scan, and `rawOf` field by field. -/
theorem negationIsParityOfSignEntries : Obligations.NegationIsParityOfSignEntries :=
  fun ft fr => ⟨flagScanFrom_neg fr 0 ft, fun m k => rawOf_eq m k _, sign_not_mem_flagScan_tags ft fr⟩

theorem join_eq_intersperse (tags : List Bytes) : join tags = (tags.intersperse [0x2C#8]).flatten := by
  induction tags using join.induct with
  | case1 => rfl
  | case2 t => simp [join]
  | case3 t u ts ih => simp [join, ih]

/-- Settles O42: what the scan collects, and the join by recursion on the list. -/
theorem tagsInTableOrder : Obligations.TagsInTableOrder :=
  ⟨fun ft fr => ⟨flagScan_tags ft fr, flagScan_any ft fr⟩, join_eq_intersperse⟩

end Sys2Proof.Machine
end

