-- ==== Sys2Proof/Proofs/Formatter.lean ====
section
/-! PROOF. The formatter's string (41_decode.md R120). -/

namespace Sys2Proof.Machine

theorem fmt4Minus_iff (p : NegZero) (d : Dec) :
    fmt4Minus p d = true ↔ d.neg = true ∧ (d.coeff ≠ 0 ∨ p = .minus) := by
  simp [fmt4Minus]

/-- Settles O46: the rounded number of units is the floor of R120, and the sign is printed as R120 says. -/
theorem formatterRoundsHalfAwayFromZero : Obligations.FormatterRoundsHalfAwayFromZero := by
  intro p d
  simp only [fmt4, fmt4Minus_iff, fmt4Units_eq_floor]
  rfl

end Sys2Proof.Machine
end

