-- ==== Sys2Proof/Proofs/DecodeCommit.lean ====
section
/-! PROOF. What a DECODE commits (41_decode.md R103 to R132): the unit classes of the mux, the reading of a frame under
each lookup and magnitude, the whole state after the commit. -/

namespace Sys2Proof.Machine

/-- The rows of R125's table. -/
def unitRows : List (Bytes × Quantity × Int) :=
  [(ascii "V", .voltage, 0), (ascii "mV", .voltage, -3),
   (ascii "A", .current, 0), (ascii "mA", .current, -3), (ascii "uA", .current, -6),
   (ascii "Ohm", .resistance, 0), (ascii "kOhm", .resistance, 3), (ascii "MOhm", .resistance, 6),
   (ascii "Hz", .frequency, 0), (ascii "kHz", .frequency, 3), (ascii "MHz", .frequency, 6)]

/-- The class of the first row that bears the label. -/
def classIn (label : Bytes) : List (Bytes × Quantity × Int) → Option (Quantity × Int)
  | [] => none
  | row :: rows => if label = row.1 then some row.2 else classIn label rows

theorem mem_of_classIn {label : Bytes} {rows : List (Bytes × Quantity × Int)} {p : Quantity × Int}
    (h : classIn label rows = some p) : (label, p) ∈ rows := by
  induction rows with
  | nil => cases h
  | cons row rows ih =>
    rw [classIn] at h
    split at h
    · cases h
      subst label
      exact List.mem_cons_self
    · exact List.mem_cons_of_mem row (ih h)

theorem unitClass_eq_classIn (label : Bytes) : unitClass label = classIn label unitRows := rfl

theorem unitClass_of_mem_unitRows : ∀ row ∈ unitRows, unitClass row.1 = some row.2 := by decide

/-- Settles O35: a label that is found is a row's, and each row is found at its own label. -/
theorem unitClassIsTheTable : Obligations.UnitClassIsTheTable := fun label q k =>
  ⟨fun h => mem_of_classIn ((unitClass_eq_classIn label).symm.trans h), unitClass_of_mem_unitRows (label, q, k)⟩

section reading
variable {p : Params} {mt : MeasType} {fr : Frame} {look : Lookup}

/-- The reading of a frame with a lookup and a magnitude, the sign of `raw` by the flag scan. -/
theorem reading_of_magnitude {m : Dec} (hlook : lookupRange mt fr.sub = some look)
    (hm : magnitude p.magPolicy (window fr) = some m) :
    reading p mt fr = .ok ⟨⟨xor m.neg (flagScan p.cfg.ft fr).neg, m.coeff, m.exp + look.mexp⟩, look,
      flagScan p.cfg.ft fr, readableOf p.negZero ⟨xor m.neg (flagScan p.cfg.ft fr).neg, m.coeff, m.exp + look.mexp⟩
        look.label (flagScan p.cfg.ft fr)⟩ := by
  simp only [reading, hlook, hm, rawOf_eq]

theorem reading_of_no_magnitude (hlook : lookupRange mt fr.sub = some look)
    (hm : magnitude p.magPolicy (window fr) = none) : reading p mt fr = .error .magnitude := by
  simp only [reading, hlook, hm]

end reading

theorem lookupRange_of_no_table {mt : MeasType} (h : mt.table = none) (sub : BitVec 3) :
    lookupRange mt sub = some ⟨mt.name, 0, false⟩ := by
  simp only [lookupRange, h]

theorem lookupRange_of_entry {mt : MeasType} {rt : List RangeEntry} {sub : BitVec 3} {e : RangeEntry}
    (h : mt.table = some rt) (he : rt[sub.toNat]? = some e) : lookupRange mt sub = some ⟨e.unit, e.mexp, true⟩ := by
  simp only [lookupRange, h, he, Option.map_some]

/-- A sub-range that is in the table, where there is one, is looked up. -/
theorem lookupRange_of_in_table {mt : MeasType} {sub : BitVec 3}
    (h : ∀ rt, mt.table = some rt → sub.toNat < rt.length) : ∃ look, lookupRange mt sub = some look := by
  cases ht : mt.table with
  | none => exact ⟨_, lookupRange_of_no_table ht sub⟩
  | some rt => exact ⟨_, lookupRange_of_entry ht (List.getElem?_eq_getElem (h rt ht))⟩

/-- The value the mux gives a latch (R125 to R130): `raw` in the latch's SI unit, or UNSET. -/
def siValue (label : Bytes) (raw : Dec) (q : Quantity) : Option Dec :=
  (unitClass label).bind (fun p => if p.1 = q then some ⟨raw.neg, raw.coeff, raw.exp + p.2⟩ else none)

/-- The commit of a reading, the whole state field by field. -/
theorem commitReading_clearLatches (c : BitVec 4) (sub : BitVec 3) (rd : Reading) (s : State) :
    commitReading c sub rd s.clearLatches = { s with
      latV := siValue rd.look.label rd.raw .voltage, latI := siValue rd.look.label rd.raw .current
      latR := siValue rd.look.label rd.raw .resistance, latF := siValue rd.look.label rd.raw .frequency
      readable := rd.readable
      flags := rd.scan.hits
      status := successStatus c sub rd
      sent := s.sent ++ decodeResponse 0#2 rd.readable } := by
  have hlatch (q : Quantity) : (commitReading c sub rd s.clearLatches).latch q = siValue rd.look.label rd.raw q :=
    commitReading_latch c sub rd s q
  apply State.ext_latch
  case hl => intro q; rw [hlatch]; cases q <;> rfl
  all_goals simp

section admitted
variable {i : Instr} {c : BitVec 4} {fr : Frame} {s : State} {mt : MeasType} {look : Lookup}
  (hf : frameOf i = some (c, fr)) (hwf : cfgWf s.params.cfg = true) (hmt : s.params.cfg.mt[c.toNat]? = some mt)
include hf hwf hmt

theorem exec_of_reading {rd : Reading} (h : reading s.params mt fr = .ok rd) :
    exec i s = .next (commitReading c fr.sub rd s.clearLatches) := by
  rw [exec_frame hf hwf hmt, h]

theorem exec_of_reading_error {e : DecodeError} (h : reading s.params mt fr = .error e) :
    exec i s = .next (failedDecode (errorCode e) s) := by
  rw [exec_frame hf hwf hmt, h]
  exact congrArg Host.Outcome.next (raiseError_clearLatches e s)

end admitted

/-- Settles O12: without a table the label is the type's name and the multiplier 1. -/
theorem tablelessDecodeCommitsReading : Obligations.TablelessDecodeCommitsReading := by
  intro i c fr s mt m hf hwf hmt htable hm
  have hread := reading_of_magnitude (p := s.params) (lookupRange_of_no_table htable fr.sub) (magnitude_of_numeric hm)
  rw [exec_of_reading hf hwf hmt hread, commitReading_clearLatches]
  simp only [add_zero]
  rfl

/-- Settles O13: label and multiplier are the table entry's. -/
theorem tabledDecodeCommitsReading : Obligations.TabledDecodeCommitsReading := by
  intro i c fr s mt rt e m hf hwf hmt htable he hm
  have hread := reading_of_magnitude (p := s.params) (lookupRange_of_entry htable he) (magnitude_of_numeric hm)
  rw [exec_of_reading hf hwf hmt hread, commitReading_clearLatches]
  rfl

/-- A frame with the window `"00000"` (R109). -/
def zeroWindow (fr : Frame) : Frame := { fr with w1 := 0x30#8, w2 := 0x30#8, w3 := 0x30#8, w4 := 0x30#8, w5 := 0x30#8 }

/-- Under `ZERO` a window that is not numeric reads as `"00000"` does: the lookup and the flag scan do not see it. -/
theorem reading_zeroWindow {p : Params} {fr : Frame} (mt : MeasType) (hp : p.magPolicy = .zero)
    (hm : magDecode (window fr) = none) : reading p mt fr = reading p mt (zeroWindow fr) := by
  have hmag : magnitude .zero (window fr) = magnitude .zero (window (zeroWindow fr)) :=
    (magnitude_of_nonNumeric hm).2
  have hscan : flagScan p.cfg.ft fr = flagScan p.cfg.ft (zeroWindow fr) :=
    flagScanFrom_congr (fr := fr) (gr := zeroWindow fr) (fun _ _ => rfl) 0
  rw [reading, reading, hp, hmag, hscan]
  rfl

/-- Settles O15: the error after a lookup that succeeds, or the reading of the window `"00000"`. -/
theorem nonNumericMagnitudeFollowsPolicy : Obligations.NonNumericMagnitudeFollowsPolicy := by
  intro i c fr s mt hf hwf hmt htable hm
  refine ⟨fun hp => ?_, fun hp => ?_⟩
  · obtain ⟨look, hlook⟩ := lookupRange_of_in_table htable
    exact exec_of_reading_error (e := .magnitude) hf hwf hmt
      (reading_of_no_magnitude hlook (by rw [hp]; exact (magnitude_of_nonNumeric hm).1))
  · rw [exec_frame hf hwf hmt, reading_zeroWindow mt hp hm]
    exact (exec_frame (frameOf_ofCode c (zeroWindow fr)) hwf hmt).symm

/-- A DECODE overwrites every register: it leaves a safe state whatever state it began in. -/
theorem safe_of_exec_decode {i : Instr} {s t : State} (hd : isDecode i = true) (h : exec i s = .next t) : Safe t := by
  obtain ⟨hwf, ⟨-, e, rfl⟩ | ⟨c, fr, mt, rd, -, -, hrd, rfl⟩ | ⟨hno, -⟩ | ⟨hno, -⟩ | ⟨rfl, -⟩⟩ := exec_next h
  · exact safe_raiseError e s
  · exact safe_commitReading hwf hrd
  · simp [hd] at hno
  · simp [hd] at hno
  · cases hd

section Safe
variable {s : State} (hs : Safe s)
include hs

/-- `STATUS.TARGET` names one latch at most. -/
theorem Safe.latch_unique {q r : Quantity} (hq : (s.latch q).isSome = true) (hr : (s.latch r).isSome = true) : q = r := by
  have hcode : targetCode (some q) = targetCode (some r) :=
    ((hs.targetNamesTheLatch q).1 hq).symm.trans ((hs.targetNamesTheLatch r).1 hr)
  exact Option.some.inj (targetCode_injective hcode)

/-- After a failure `STATUS.TARGET` is 0, which is no latch's code. -/
theorem Safe.latch_eq_none_of_err (herr : statusErr s.status ≠ 0#2) (q : Quantity) : s.latch q = none := by
  have htarget : statusTarget s.status = targetCode none := by
    rw [(hs.afterFailure herr).1, statusTarget_packStatus, targetCode]
  rw [← Option.not_isSome_iff_eq_none, hs.targetNamesTheLatch q, htarget, targetCode_injective.eq_iff]
  simp

end Safe

/-- Settles O19: R132 is a promise of every safe state, and a DECODE leaves one. -/
theorem decodeSetsAtMostTheTargetLatch : Obligations.DecodeSetsAtMostTheTargetLatch := by
  intro i s t hd h
  have hsafe := safe_of_exec_decode hd h
  exact ⟨fun _ _ => hsafe.latch_unique, hsafe.targetNamesTheLatch, hsafe.latch_eq_none_of_err⟩

end Sys2Proof.Machine
end

