-- ==== Sys2Proof/Proofs/Accessors.lean ====
section
/-! PROOF. The reads and RESET (42_accessors.md R140 to R149): what each answers under an admitted configuration, and that
the bits of a response tell an unset latch from one that holds a value. -/

namespace Sys2Proof.Machine

/-- The NaNs are the bit patterns whose magnitude bits are past infinity's. -/
theorem isNaN_iff (b : BitVec 64) : isNaN b = true ↔ infMagnitude < magBits b := by
  rw [isNaN, Bool.and_eq_true, beq_iff_eq, bne_iff_ne, ne_eq, ← BitVec.toNat_inj, ← BitVec.toNat_inj,
    exponentField_toNat, fractionField_toNat, magBits, infMagnitude, BitVec.toNat_ofNat, BitVec.toNat_ofNat]
  omega

theorem isNaN_binary64 (d : Dec) : isNaN (binary64 d) = false := by
  rw [← Bool.not_eq_true, isNaN_iff, magBits_binary64, not_lt]
  exact magnitudeBits_le_inf _ _

/-- Of a drawn NaN's magnitude bits only the distance past infinity is free. -/
theorem magBits_nanDraw (n : Nat) : magBits (nanDraw n) = infMagnitude + ((Config.nanFraction n).val + 1) := by
  have hfraction := (Config.nanFraction n).isLt
  rw [magBits, nanDraw, toNat_append_eq, toNat_append_eq, infMagnitude, BitVec.toNat_ofNat, BitVec.toNat_ofNat]
  omega

theorem isNaN_nanDraw (n : Nat) : isNaN (nanDraw n) = true := by
  rw [isNaN_iff, magBits_nanDraw]
  omega

/-- Settles O49: a decimal's magnitude bits stop at infinity's, a drawn NaN's are past them. -/
theorem nanTellsAnUnsetLatch : Obligations.NaNTellsAnUnsetLatch := ⟨isNaN_binary64, isNaN_nanDraw⟩

section admitted
variable {s : State} (hwf : cfgWf s.params.cfg = true)
include hwf

theorem readLatch_of_set {q : Quantity} {d : Dec} (h : s.latch q = some d) :
    readLatch q s = .next (s.respond (leBytes 8 (binary64 d))) := by
  rw [readLatch, whenAdmitted_of_wf _ hwf, h]

theorem readLatch_of_unset {q : Quantity} (h : s.latch q = none) :
    readLatch q s = .next (s.respond (leBytes 8 (nanDraw s.nanDraws))).countDraw := by
  rw [readLatch, whenAdmitted_of_wf _ hwf, h]

theorem readRegister_of_wf (response : Bytes) : readRegister response s = .next (s.respond response) :=
  whenAdmitted_of_wf _ hwf

theorem execReset_of_wf : execReset s = .next (s.clearLatches.setRegisters [] 0#32 0#16) :=
  whenAdmitted_of_wf _ hwf

end admitted

/-- Settles O20: each of the four commands is the read of its latch, which is set or not. -/
theorem latchReadsRespond : Obligations.LatchReadsRespond := by
  intro i q c s hmem hwf
  obtain ⟨hbyte, hexec⟩ : encode i = [c] ∧ exec i s = readLatch q s := by
    simp only [List.mem_cons, Prod.mk.injEq, List.not_mem_nil, or_false] at hmem
    rcases hmem with ⟨rfl, rfl, rfl⟩ | ⟨rfl, rfl, rfl⟩ | ⟨rfl, rfl, rfl⟩ | ⟨rfl, rfl, rfl⟩ <;> exact ⟨rfl, rfl⟩
  rw [hexec]
  exact ⟨hbyte, fun d hset => readLatch_of_set hwf hset,
    fun hunset => ⟨nanDraw s.nanDraws, isNaN_nanDraw _, readLatch_of_unset hwf hunset⟩⟩

theorem leBytes_two {w : Nat} (v : BitVec w) : leBytes 2 v = [v.extractLsb' 0 8, v.extractLsb' 8 8] := rfl

/-- A length that fits two bytes is sent whole (R43, R65). -/
theorem lenBytes_eq {bs : Bytes} (h : bs.length ≤ 65535) :
    lenBytes bs = [BitVec.ofNat 8 (bs.length % 256), BitVec.ofNat 8 (bs.length / 256)] := by
  rw [lenBytes, leBytes_two]
  congr 2
  · apply extractLsb'_eq_of_toNat
    rw [BitVec.toNat_ofNat, BitVec.toNat_ofNat]; omega
  · apply extractLsb'_eq_of_toNat
    rw [BitVec.toNat_ofNat, BitVec.toNat_ofNat]; omega

/-- Settles O21: the read of a register whose length fits two bytes. -/
theorem readReadableResponds : Obligations.ReadReadableResponds := by
  refine ⟨rfl, fun s hwf hlen => ?_⟩
  rw [exec, execRdReadable, readRegister_of_wf hwf, lenBytes_eq hlen]
  rfl

theorem joined_bytes_of_word16 (v : BitVec 16) : v.extractLsb' 8 8 ++ v.extractLsb' 0 8 = v := by
  rw [BitVec.extractLsb'_append_extractLsb'_eq_extractLsb' (start₂ := 8) (start₁ := 0) rfl]
  exact BitVec.extractLsb'_eq_self

theorem joined_bytes_of_word32 (v : BitVec 32) :
    v.extractLsb' 24 8 ++ v.extractLsb' 16 8 ++ v.extractLsb' 8 8 ++ v.extractLsb' 0 8 = v := by
  rw [BitVec.extractLsb'_append_extractLsb'_eq_extractLsb' (start₂ := 24) (start₁ := 16) rfl,
    BitVec.extractLsb'_append_extractLsb'_eq_extractLsb' (start₂ := 16) (start₁ := 8) rfl,
    BitVec.extractLsb'_append_extractLsb'_eq_extractLsb' (start₂ := 8) (start₁ := 0) rfl]
  exact BitVec.extractLsb'_eq_self

/-- Settles O22: the bytes of either register, joined from the last to the first, are the register. -/
theorem readStatusAndFlagsRespond : Obligations.ReadStatusAndFlagsRespond :=
  ⟨rfl, rfl, fun s hwf =>
    ⟨⟨_, _, joined_bytes_of_word16 s.status, readRegister_of_wf hwf (leBytes 2 s.status)⟩,
      ⟨_, _, _, _, joined_bytes_of_word32 s.flags, readRegister_of_wf hwf (leBytes 4 s.flags)⟩⟩⟩

/-- Settles O23: the registers RESET writes are those of the state after reset. -/
theorem resetRestoresPowerOn : Obligations.ResetRestoresPowerOn :=
  ⟨rfl, fun _ hwf => execReset_of_wf hwf⟩

end Sys2Proof.Machine
end

