-- ==== Sys2Proof/Proofs/Exceptions.lean ====
section
/-! PROOF. The errors of DECODE (60_exceptions.md R160 to R167): when each is raised, which comes first, and what the
commit of one leaves. -/

namespace Sys2Proof.Machine

/-- The response of an error is its code and the length 0 of READABLE (30_encoding.md R65). -/
theorem decodeResponse_nil (code : BitVec 2) : decodeResponse code [] = [code.setWidth 8, 0x00#8, 0x00#8] := rfl

section failedDecode
variable (code : BitVec 2) (s : State)

@[simp] theorem statusErr_failedDecode : statusErr (failedDecode code s).status = code := statusErr_packStatus ..

theorem failedDecode_sent :
    (failedDecode code s).sent = s.sent ++ decodeResponse code (failedDecode code s).readable := by
  rw [failedDecode, decodeResponse_nil]

end failedDecode

@[simp] theorem statusErr_commitReading (c : BitVec 4) (sub : BitVec 3) (rd : Reading) (s : State) :
    statusErr (commitReading c sub rd s).status = 0#2 := by
  rw [commitReading_status, successStatus, statusErr_packStatus]

/-- A DECODE that answers a next state failed with a code or committed a reading. -/
theorem decode_next_cases {i : Instr} {s t : State} (hd : isDecode i = true) (h : exec i s = .next t) :
    (∃ code, t = failedDecode code s) ∨ ∃ c sub rd, t = commitReading c sub rd s.clearLatches := by
  rcases exec_decode_next hd h with ⟨e, hexec⟩ | ⟨c, sub, rd, hexec⟩ <;> cases h.symm.trans (hexec s rfl)
  · exact .inl ⟨errorCode e, raiseError_clearLatches e s⟩
  · exact .inr ⟨c, sub, rd, rfl⟩

/-- Settles O17: of the two commits of a DECODE, that of a reading leaves `STATUS.ERR` 0. -/
theorem failedDecodeWritesTheErrorCommit : Obligations.FailedDecodeWritesTheErrorCommit := by
  intro i s t hd h herr
  rcases decode_next_cases hd h with ⟨code, rfl⟩ | ⟨c, sub, rd, rfl⟩
  · rw [statusErr_failedDecode]
  · exact absurd (statusErr_commitReading ..) herr

/-- The response of a DECODE is made of the registers it leaves (30_encoding.md R65). -/
theorem decode_sent {i : Instr} {s t : State} (hd : isDecode i = true) (h : exec i s = .next t) :
    t.sent = s.sent ++ decodeResponse (statusErr t.status) t.readable := by
  rcases decode_next_cases hd h with ⟨code, rfl⟩ | ⟨c, sub, rd, rfl⟩
  · rw [statusErr_failedDecode, failedDecode_sent]
  · rw [statusErr_commitReading, commitReading_sent, commitReading_readable, State.clearLatches_sent]

/-- Settles O11: a frame of fewer than 12 bytes has no layout, and its bytes are not read further. -/
theorem shortFrameIsInvalidFrame : Obligations.ShortFrameIsInvalidFrame := by
  intro f s hwf hshort
  rw [exec, execDecode, (parseFrame_none f).2 hshort]
  exact whenAdmitted_of_wf _ hwf

/-- The lookup fails exactly past the end of a range table (40_tables.md R88). -/
theorem lookupRange_eq_none_iff (mt : MeasType) (sub : BitVec 3) :
    lookupRange mt sub = none ↔ subrangeOutOfTable mt sub = true := by
  unfold lookupRange subrangeOutOfTable
  cases mt.table with
  | none => simp
  | some rt => simp

theorem subrangeOutOfTable_of_le {mt : MeasType} {rt : List RangeEntry} {sub : BitVec 3} (htable : mt.table = some rt)
    (h : rt.length ≤ sub.toNat) : subrangeOutOfTable mt sub = true := by
  rw [subrangeOutOfTable, htable]
  exact decide_eq_true h

theorem magnitude_eq_none_iff (p : MagPolicy) (ws : Bytes) :
    magnitude p ws = none ↔ magDecode ws = none ∧ p = .error := by
  cases hm : magDecode ws with
  | some m => simp [magnitude_of_numeric hm]
  | none => cases p <;> simp [magnitude_of_nonNumeric hm]

section reading
variable {p : Params} {mt : MeasType} {fr : Frame}

/-- A sub-range out of the table is an error before the magnitude is looked at (R166). -/
theorem reading_of_out_of_table (h : subrangeOutOfTable mt fr.sub = true) : reading p mt fr = .error .subrange := by
  rw [reading, (lookupRange_eq_none_iff mt fr.sub).2 h]

theorem reading_of_magnitude_error (hsub : ¬subrangeOutOfTable mt fr.sub = true)
    (hmag : magDecode (window fr) = none ∧ p.magPolicy = .error) : reading p mt fr = .error .magnitude := by
  obtain ⟨look, hlook⟩ := Option.ne_none_iff_exists'.1 ((lookupRange_eq_none_iff mt fr.sub).not.2 hsub)
  exact reading_of_no_magnitude hlook ((magnitude_eq_none_iff _ _).2 hmag)

theorem reading_of_no_fault (hsub : ¬subrangeOutOfTable mt fr.sub = true)
    (hmag : ¬(magDecode (window fr) = none ∧ p.magPolicy = .error)) : ∃ rd, reading p mt fr = .ok rd := by
  obtain ⟨look, hlook⟩ := Option.ne_none_iff_exists'.1 ((lookupRange_eq_none_iff mt fr.sub).not.2 hsub)
  obtain ⟨m, hm⟩ := Option.ne_none_iff_exists'.1 ((magnitude_eq_none_iff _ _).not.2 hmag)
  exact ⟨_, reading_of_magnitude hlook hm⟩

end reading

/-- Settles O14: the lookup fails past the end of a table, and eight entries are as many as a 3-bit index has values. -/
theorem subrangeOutOfTableIsInvalidFrame : Obligations.SubrangeOutOfTableIsInvalidFrame := by
  refine ⟨fun i c fr s mt rt hf hwf hmt htable hsub => ?_, fun mt sub htable => ?_⟩
  · exact exec_of_reading_error (e := .subrange) hf hwf hmt
      (reading_of_out_of_table (subrangeOutOfTable_of_le htable hsub))
  · refine Option.isSome_iff_exists.2 (lookupRange_of_in_table fun rt hrt => ?_)
    have hlen : rt.length = 8 := by
      rcases htable with hnone | ⟨rt', hrt', hlen⟩
      · cases hnone.symm.trans hrt
      · cases hrt'.symm.trans hrt
        exact hlen
    have := sub.isLt
    omega

/-- What a DECODE of a frame of valid layout leaves in `STATUS.ERR`: the sub-range's code before the magnitude's. -/
theorem statusErr_of_exec_frame {i : Instr} {c : BitVec 4} {fr : Frame} {s t : State} {mt : MeasType}
    (hf : frameOf i = some (c, fr)) (hwf : cfgWf s.params.cfg = true) (hmt : s.params.cfg.mt[c.toNat]? = some mt)
    (h : exec i s = .next t) :
    statusErr t.status =
      if subrangeOutOfTable mt fr.sub = true then 1#2
      else if magDecode (window fr) = none ∧ s.params.magPolicy = .error then 2#2
      else 0#2 := by
  split_ifs with hsub hmag
  · cases h.symm.trans (exec_of_reading_error hf hwf hmt (reading_of_out_of_table hsub))
    exact statusErr_failedDecode ..
  · cases h.symm.trans (exec_of_reading_error hf hwf hmt (reading_of_magnitude_error hsub hmag))
    exact statusErr_failedDecode ..
  · obtain ⟨rd, hrd⟩ := reading_of_no_fault hsub hmag
    cases h.symm.trans (exec_of_reading hf hwf hmt hrd)
    exact statusErr_commitReading ..

/-- Settles O16: a short frame has its own error, a frame of valid layout the first of its reading's. -/
theorem firstErrorInStepOrderIsReported : Obligations.FirstErrorInStepOrderIsReported := by
  intro f s hwf
  obtain ⟨t, ht⟩ := everyCommandCompletes (.decode f) s hwf
  refine ⟨t, ht, fun hshort => ?_, fun c fr mt hparse hmt => ?_, decode_sent rfl ht⟩
  · cases ht.symm.trans (shortFrameIsInvalidFrame f s hwf hshort)
    exact statusErr_failedDecode ..
  · exact statusErr_of_exec_frame (i := .decode f) hparse hwf hmt ht

end Sys2Proof.Machine
end

