-- ==== Sys2Proof/Proofs/Hazards.lean ====
section
/-! PROOF. The software-visible hazards (70_reset_and_hazards.md R184 to R186): what a latch read after a DECODE can
see of the frames before it. -/

namespace Sys2Proof.Machine

/-- Each of the four latch commands is the read of the latch it is listed with (42_accessors.md R140 to R143). -/
theorem exec_eq_readLatch_of_mem {j : Instr} {q : Quantity}
    (h : (j, q) ∈ [(Instr.rdVoltage, Quantity.voltage), (.rdCurrent, .current), (.rdResistance, .resistance),
      (.rdFrequency, .frequency)]) (s : State) : exec j s = readLatch q s := by
  simp only [List.mem_cons, Prod.mk.injEq, List.not_mem_nil, or_false] at h
  rcases h with ⟨rfl, rfl⟩ | ⟨rfl, rfl⟩ | ⟨rfl, rfl⟩ | ⟨rfl, rfl⟩ <;> rfl

/-- A command that answers a next state leaves an admitted configuration for the command after it (R28, R86). -/
theorem cfgWf_of_exec_next {i : Instr} {s t : State} (h : exec i s = .next t) : cfgWf t.params.cfg = true := by
  obtain ⟨hparams, -⟩ := noCommandWritesTheConfiguration i s t h
  obtain ⟨hwf, -⟩ := exec_next h
  rw [hparams, hwf]

/-- A DECODE leaves UNSET every latch that `STATUS.TARGET` does not name (41_decode.md R132). -/
theorem latch_eq_none_of_untargeted {i : Instr} {q : Quantity} {s t : State} (hd : isDecode i = true)
    (h : exec i s = .next t) (htarget : statusTarget t.status ≠ targetCode (some q)) : t.latch q = none := by
  obtain ⟨-, hset, -⟩ := decodeSetsAtMostTheTargetLatch i s t hd h
  rwa [← Option.not_isSome_iff_eq_none, hset q]

/-- Settles O24: the DECODE left the latch UNSET, and the read of an unset latch sends a NaN draw. -/
theorem untargetedLatchReadsNaN : Obligations.UntargetedLatchReadsNaN := by
  intro i j q s t hmem hd h htarget
  have hread := readLatch_of_unset (cfgWf_of_exec_next h) (latch_eq_none_of_untargeted hd h htarget)
  exact ⟨nanDraw t.nanDraws, _, isNaN_nanDraw _, (exec_eq_readLatch_of_mem hmem t).trans hread, rfl⟩

end Sys2Proof.Machine
end

