-- ==== Sys2Proof/Proofs/StreamHead.lean ====
section
/-! PROOF. The head of the host's stream as the model chooses it: a step waits for a command that is not whole
(60_exceptions.md R176, 70_reset_and_hazards.md R180; assumption 1), and an opcode-table word is laid out as one whole
command (assumptions 7 and 15). -/

namespace Sys2Proof.Machine

theorem step_of_incomplete {s : State} (h : decode s.input = .incomplete) : step s = .next s := by
  rw [step, h]

/-- A DECODE with fewer frame bytes than its length byte says is not whole (30_encoding.md R63). -/
theorem decode_short_operands {l : Byte} {body : Bytes} (h : body.length < l.toNat) :
    decode (0x01#8 :: l :: body) = .incomplete :=
  if_pos h

/-- Settles O2: each of the three streams is incomplete to the decoder. -/
theorem stepWaitsWithoutWholeCommand : Obligations.StepWaitsWithoutWholeCommand := by
  intro s hin
  apply step_of_incomplete
  rcases hin with hin | hin | ⟨l, body, hin, hshort⟩ <;> rw [hin]
  · rfl
  · rfl
  · exact decode_short_operands hshort

/-- A frame operand's DECODE is the encoding of a well-formed command (R63). -/
theorem encodeDecode_isEncoding {f : Bytes} (h : f.length ≤ 255) : ∃ i, i.wf = true ∧ encode i = encodeDecode f :=
  ⟨.ofFrame f, wf_ofFrame h⟩

/-- A command byte other than a DECODE's is the whole encoding of a command (R64). -/
theorem commandByte_isEncoding {c : Byte} (hmem : c ∈ commandBytes) (hc : c ≠ 0x01#8) :
    ∃ i, i.wf = true ∧ encode i = [c] := by
  obtain ⟨heq, -⟩ | ⟨i, hw, henc, -⟩ | ⟨hnot, -⟩ := decode_cons_cases c []
  · exact absurd heq hc
  · exact ⟨i, hw, henc⟩
  · exact absurd hmem hnot

/-- A DECODE with as many frame bytes as its length byte says is the encoding of a well-formed command (R63). -/
theorem wholeOperands_isEncoding {l : Byte} {body : Bytes} (h : body.length = l.toNat) :
    ∃ i, i.wf = true ∧ encode i = 0x01#8 :: l :: body := by
  have hbytes : encodeDecode body = 0x01#8 :: l :: body := by
    rw [encodeDecode, h, BitVec.ofNat_toNat, BitVec.setWidth_eq]
  rw [← hbytes]
  exact encodeDecode_isEncoding (by have := l.isLt; omega)

/-- Every opcode-table word, of whatever width, is laid out as the encoding of one well-formed command. -/
theorem tableBytes_isEncoding (nbits w : Nat) : ∃ i, i.wf = true ∧ encode i = tableBytes nbits w := by
  rw [tableBytes]
  split_ifs with hdecode hmem
  · rw [hdecode]
    exact wholeOperands_isEncoding (by rw [List.length_map, List.length_range])
  · exact commandByte_isEncoding hmem hdecode
  · exact encodeDecode_isEncoding (by simp)

/-- The instruction read from a table word is well-formed, and its encoding is all of the word's bytes. -/
theorem encode_of_decodeTableWord {nbits w : Nat} {i : Instr} (h : decodeTableWord nbits w = some i) :
    i.wf = true ∧ encode i = tableBytes nbits w := by
  obtain ⟨j, hw, henc⟩ := tableBytes_isEncoding nbits w
  have hread : decode (tableBytes nbits w) = .command j [] := by
    rw [← henc, ← List.append_nil (encode j), decode_encode hw]
  rw [decodeTableWord, hread] at h
  cases h
  exact ⟨hw, henc⟩

/-- Settles O51: the word's bytes are the command's encoding, and the step takes them off the stream again. -/
theorem tableWordRunsNext : Obligations.TableWordRunsNext := by
  intro s nbits w i h
  obtain ⟨hw, henc⟩ := encode_of_decodeTableWord h
  exact step_of_encode hw (by rw [henc]; rfl)

end Sys2Proof.Machine
end
